-- ==== Sys2Proof/Word.lean ====
section
/-! DEFINITION. The bit-vector types of the core (rules R6, R91): a register byte, the 16-bit word of PC, I and an
instruction, the 4-bit field that names a register or counts rows, the 12-bit address operand. All are unsigned. -/

namespace Sys2Proof

/-- An 8-bit value: a V register, a timer, a memory byte, an immediate `kk` (R21, R26, R30, R93). -/
abbrev Byte := BitVec 8

/-- A 16-bit value: an instruction word, I, PC, a return address (R23, R24, R25, R90). -/
abbrev Word := BitVec 16

/-- A 4-bit field of an instruction word (R91): a row count, an opcode nibble. -/
abbrev Nibble := BitVec 4

/-- A 12-bit address operand `nnn` (R91). -/
abbrev Addr := BitVec 12

/-- The number of a general register: the 4-bit field that names it, so every value names one (R21). -/
abbrev RegName := BitVec 4

end Sys2Proof
end

