-- ==== Sys2Proof/Config.lean ====
section
/-! DEFINITION. What is fixed for this core (Table P of rule R5) and what the spec leaves open as a free value. The font
bytes are in Sys2Proof/Machine/Font.lean. -/

namespace Sys2Proof.Config

/-- `MEM_SIZE`: bytes of memory, addresses 0 to 4095 (R5, R60). -/
def memSize : Nat := 4096

/-- `ENTRY`: reset value of PC and base address of `load` (R5, R61). -/
def entry : Nat := 0x200

/-- `FONT_BASE`: first byte of the font data (R5, R34). -/
def fontBase : Nat := 0

/-- `FONT_SIZE`: bytes of font data (R5, R34). -/
def fontSize : Nat := 80

/-- `GLYPH_SIZE`: bytes of one font glyph (R5, R34). -/
def glyphSize : Nat := 5

/-- `FB_W`: columns of the framebuffer (R5, R27). -/
def fbWidth : Nat := 64

/-- `FB_CELLS`: cells of the framebuffer (R5, R27). -/
def fbCells : Nat := 2048

/-- `NKEYS`: key flags (R5, R29). -/
def nKeys : Nat := 16

/-- `MAX_IMAGE`: the largest program image `load` accepts (R5, R282). -/
def maxImage : Nat := 3584

/-- `RND`: the byte the random source gives at its `k`-th draw (R32, R223, D25; log 1). A FREE VALUE: it has no body, so
whatever is proved of the model holds for every sequence of bytes. -/
opaque rnd : Nat → Byte

end Sys2Proof.Config
end

