-- ==== Sys2Proof/Syntax.lean ====
section
/-! DEFINITION. The instructions (Table OP of rule R95), one constructor per row of spec/opcode_table.json, and the fields
of an instruction word (R91). Operand fields have the width the encoding gives them, so every term is encodable: R93 "all
16 values are legal". -/

namespace Sys2Proof

/-- The overlapping fields the decoder extracts from a word (R91). -/
structure Fields where
  op  : Nibble
  x   : RegName
  y   : RegName
  n   : Nibble
  kk  : Byte
  nnn : Addr
  deriving DecidableEq, Repr

/-- One instruction. The docstring of each constructor gives its pattern, the assembler form of Table OP and its rule. -/
inductive Instr where
  /-- 00E0, CLS (R140). -/
  | cls
  /-- 00EE, RET (R153). -/
  | ret
  /-- 1NNN, JP nnn (R150). -/
  | jp (nnn : Addr)
  /-- 2NNN, CALL nnn (R152). -/
  | call (nnn : Addr)
  /-- 3XNN, SE Vx, kk (R160). -/
  | seImm (x : RegName) (kk : Byte)
  /-- 4XNN, SNE Vx, kk (R161). -/
  | sneImm (x : RegName) (kk : Byte)
  /-- 5XY0, SE Vx, Vy (R162). -/
  | seReg (x y : RegName)
  /-- 6XNN, LD Vx, kk (R170). -/
  | ldImm (x : RegName) (kk : Byte)
  /-- 7XNN, ADD Vx, kk (R171). -/
  | addImm (x : RegName) (kk : Byte)
  /-- 8XY0, LD Vx, Vy (R172). -/
  | ldReg (x y : RegName)
  /-- 8XY1, OR Vx, Vy (R180). -/
  | orReg (x y : RegName)
  /-- 8XY2, AND Vx, Vy (R181). -/
  | andReg (x y : RegName)
  /-- 8XY3, XOR Vx, Vy (R182). -/
  | xorReg (x y : RegName)
  /-- 8XY4, ADD Vx, Vy (R190). -/
  | addReg (x y : RegName)
  /-- 8XY5, SUB Vx, Vy (R191). -/
  | sub (x y : RegName)
  /-- 8XY6, SHR Vx (R183); `y` is decoded and ignored (R97). -/
  | shr (x y : RegName)
  /-- 8XY7, SUBN Vx, Vy (R192). -/
  | subn (x y : RegName)
  /-- 8XYE, SHL Vx (R184); `y` is decoded and ignored (R97). -/
  | shl (x y : RegName)
  /-- 9XY0, SNE Vx, Vy (R163). -/
  | sneReg (x y : RegName)
  /-- ANNN, LD I, nnn (R200). -/
  | ldI (nnn : Addr)
  /-- BNNN, JP V0, nnn (R151). -/
  | jpV0 (nnn : Addr)
  /-- CXNN, RND Vx, kk (R223). -/
  | rnd (x : RegName) (kk : Byte)
  /-- DXYN, DRW Vx, Vy, n (R141). -/
  | drw (x y : RegName) (n : Nibble)
  /-- EX9E, SKP Vx (R164). -/
  | skp (x : RegName)
  /-- EXA1, SKNP Vx (R165). -/
  | sknp (x : RegName)
  /-- FX07, LD Vx, DT (R220). -/
  | ldVxDt (x : RegName)
  /-- FX0A, LD Vx, K (R230). -/
  | ldVxK (x : RegName)
  /-- FX15, LD DT, Vx (R221). -/
  | ldDtVx (x : RegName)
  /-- FX18, LD ST, Vx (R222). -/
  | ldStVx (x : RegName)
  /-- FX1E, ADD I, Vx (R201). -/
  | addI (x : RegName)
  /-- FX29, LD F, Vx (R202). -/
  | ldF (x : RegName)
  /-- FX33, LD B, Vx (R203). -/
  | ldB (x : RegName)
  /-- FX55, LD [I], Vx (R204). -/
  | ldMemVx (x : RegName)
  /-- FX65, LD Vx, [I] (R205). -/
  | ldVxMem (x : RegName)
  deriving DecidableEq, Repr

end Sys2Proof
end

