-- ==== Sys2Proof/WellFormed.lean ====
section
/-! DEFINITION. Well-formedness of what is built from parts. An `Instr` needs no check: each operand has the width of its
field and R93 makes every value of it legal, so a term that cannot be encoded cannot be written down. A record of the six
OVERLAPPING fields of a word can be inconsistent (R91), and a program image can be too long (R282): those are checked. -/

namespace Sys2Proof

/-- R91: `kk = y || n`. -/
def Fields.lowByteAgrees (f : Fields) : Bool := f.kk == f.y ++ f.n

/-- R91: `nnn = x || y || n`. -/
def Fields.addressAgrees (f : Fields) : Bool := f.nnn == f.x ++ f.y ++ f.n

/-- The fields are those of some word (R91). -/
def Fields.wf (f : Fields) : Bool := f.lowByteAgrees && f.addressAgrees

/-- R282: an image of at most 3584 bytes fits between the entry offset and the end of memory. -/
def imageFits (image : List Byte) : Bool := image.length ≤ Config.maxImage

end Sys2Proof
end

