-- ==== Sys2Proof/Decode.lean ====
section
/-! DEFINITION. Decoding (rules R90, R91, R94, R96), total on every word and every list of bytes, rejecting by name; after
it the encoder, by the formats of Table FMT (R92), and the mask and match of Table OP (R95). -/

namespace Sys2Proof

/-- Why bytes are no instruction. -/
inductive DecodeError where
  /-- The word matches no row of Table OP (R96). -/
  | invalidWord (w : Word)
  /-- Fewer than the two bytes of an instruction (R90). -/
  | truncated
  deriving DecidableEq, Repr

/-- The word stored in two consecutive bytes, the first being the high byte (R63, R90). -/
def wordOfBytes (hi lo : Byte) : Word := hi ++ lo

/-- The byte of a word at the lower address (R63). -/
def highByte (w : Word) : Byte := w.extractLsb' 8 8

/-- The byte of a word at the higher address (R63). -/
def lowByte (w : Word) : Byte := w.extractLsb' 0 8

/-- R91: "extract the four nibble fields", and the overlapping `kk` and `nnn`. -/
def fieldsOf (w : Word) : Fields where
  op  := w.extractLsb' 12 4
  x   := w.extractLsb' 8 4
  y   := w.extractLsb' 4 4
  n   := w.extractLsb' 0 4
  kk  := w.extractLsb' 0 8
  nnn := w.extractLsb' 0 12

/-- R94, op = 0: "the whole word must be 0x00E0 or 0x00EE". -/
def selectZero (nnn : Addr) : Option Instr :=
  if nnn = 0x0E0#12 then some .cls
  else if nnn = 0x0EE#12 then some .ret
  else none

/-- R94, op = 8: `n` selects among 0 to 7 and E. -/
def selectEight (x y : RegName) (n : Nibble) : Option Instr :=
  if n = 0x0#4 then some (.ldReg x y)
  else if n = 0x1#4 then some (.orReg x y)
  else if n = 0x2#4 then some (.andReg x y)
  else if n = 0x3#4 then some (.xorReg x y)
  else if n = 0x4#4 then some (.addReg x y)
  else if n = 0x5#4 then some (.sub x y)
  else if n = 0x6#4 then some (.shr x y)
  else if n = 0x7#4 then some (.subn x y)
  else if n = 0xE#4 then some (.shl x y)
  else none

/-- R94, op = E: `kk` selects between 9E and A1. -/
def selectE (x : RegName) (kk : Byte) : Option Instr :=
  if kk = 0x9E#8 then some (.skp x)
  else if kk = 0xA1#8 then some (.sknp x)
  else none

/-- R94, op = F: `kk` selects among nine values. -/
def selectF (x : RegName) (kk : Byte) : Option Instr :=
  if kk = 0x07#8 then some (.ldVxDt x)
  else if kk = 0x0A#8 then some (.ldVxK x)
  else if kk = 0x15#8 then some (.ldDtVx x)
  else if kk = 0x18#8 then some (.ldStVx x)
  else if kk = 0x1E#8 then some (.addI x)
  else if kk = 0x29#8 then some (.ldF x)
  else if kk = 0x33#8 then some (.ldB x)
  else if kk = 0x55#8 then some (.ldMemVx x)
  else if kk = 0x65#8 then some (.ldVxMem x)
  else none

/-- R94: select on `op`; op = 5 and op = 9 require `n = 0` (D13, log 7). -/
def select (f : Fields) : Option Instr :=
  match f.op with
  | 0x0#4 => selectZero f.nnn
  | 0x1#4 => some (.jp f.nnn)
  | 0x2#4 => some (.call f.nnn)
  | 0x3#4 => some (.seImm f.x f.kk)
  | 0x4#4 => some (.sneImm f.x f.kk)
  | 0x5#4 => if f.n = 0x0#4 then some (.seReg f.x f.y) else none
  | 0x6#4 => some (.ldImm f.x f.kk)
  | 0x7#4 => some (.addImm f.x f.kk)
  | 0x8#4 => selectEight f.x f.y f.n
  | 0x9#4 => if f.n = 0x0#4 then some (.sneReg f.x f.y) else none
  | 0xA#4 => some (.ldI f.nnn)
  | 0xB#4 => some (.jpV0 f.nnn)
  | 0xC#4 => some (.rnd f.x f.kk)
  | 0xD#4 => some (.drw f.x f.y f.n)
  | 0xE#4 => selectE f.x f.kk
  | 0xF#4 => selectF f.x f.kk
  | _ => none

/-- R94, R96, R123: the instruction of a word, or the word rejected as invalid. It reads nothing but the word. -/
def decode (w : Word) : Except DecodeError Instr :=
  match select (fieldsOf w) with
  | some i => .ok i
  | none => .error (.invalidWord w)

/-- R90: an instruction is two bytes, high byte first; the rest of the list is handed back. -/
def decodeBytes (bytes : List Byte) : Except DecodeError (Instr × List Byte) :=
  match bytes with
  | hi :: lo :: rest =>
    match decode (wordOfBytes hi lo) with
    | .ok i => .ok (i, rest)
    | .error e => .error e
  | _ => .error .truncated

/-! ## The encoder -/

/-- Format A of Table FMT (R92): op, nnn. -/
def formatA (op : Nibble) (nnn : Addr) : Word := op ++ nnn

/-- Formats XI and XS of Table FMT (R92): op, x, and the low byte (`kk`, or the fixed secondary opcode). -/
def formatXI (op : Nibble) (x : RegName) (kk : Byte) : Word := op ++ (x ++ kk)

/-- Formats XY and XYN of Table FMT (R92): op, x, y, and the low nibble (fixed secondary opcode, or row count). -/
def formatXYN (op : Nibble) (x y : RegName) (n : Nibble) : Word := op ++ (x ++ (y ++ n))

/-- The word of an instruction (Table OP, R95; log 6). -/
def encode (i : Instr) : Word :=
  match i with
  | .cls => 0x00E0#16
  | .ret => 0x00EE#16
  | .jp nnn => formatA 0x1 nnn
  | .call nnn => formatA 0x2 nnn
  | .seImm x kk => formatXI 0x3 x kk
  | .sneImm x kk => formatXI 0x4 x kk
  | .seReg x y => formatXYN 0x5 x y 0x0
  | .ldImm x kk => formatXI 0x6 x kk
  | .addImm x kk => formatXI 0x7 x kk
  | .ldReg x y => formatXYN 0x8 x y 0x0
  | .orReg x y => formatXYN 0x8 x y 0x1
  | .andReg x y => formatXYN 0x8 x y 0x2
  | .xorReg x y => formatXYN 0x8 x y 0x3
  | .addReg x y => formatXYN 0x8 x y 0x4
  | .sub x y => formatXYN 0x8 x y 0x5
  | .shr x y => formatXYN 0x8 x y 0x6
  | .subn x y => formatXYN 0x8 x y 0x7
  | .shl x y => formatXYN 0x8 x y 0xE
  | .sneReg x y => formatXYN 0x9 x y 0x0
  | .ldI nnn => formatA 0xA nnn
  | .jpV0 nnn => formatA 0xB nnn
  | .rnd x kk => formatXI 0xC x kk
  | .drw x y n => formatXYN 0xD x y n
  | .skp x => formatXI 0xE x 0x9E
  | .sknp x => formatXI 0xE x 0xA1
  | .ldVxDt x => formatXI 0xF x 0x07
  | .ldVxK x => formatXI 0xF x 0x0A
  | .ldDtVx x => formatXI 0xF x 0x15
  | .ldStVx x => formatXI 0xF x 0x18
  | .addI x => formatXI 0xF x 0x1E
  | .ldF x => formatXI 0xF x 0x29
  | .ldB x => formatXI 0xF x 0x33
  | .ldMemVx x => formatXI 0xF x 0x55
  | .ldVxMem x => formatXI 0xF x 0x65

/-- The two bytes of an instruction in memory order (R63, R90). -/
def encodeBytes (i : Instr) : List Byte := [highByte (encode i), lowByte (encode i)]

/-! ## Table OP as mask and match -/

/-- One row of Table OP: a word `w` is the row's instruction exactly when `w & mask = pattern` (R95). -/
structure OpRow where
  mask : Word
  pattern : Word
  deriving DecidableEq, Repr

/-- Does a word match a row (R95)? -/
def matchesRow (r : OpRow) (w : Word) : Bool := w &&& r.mask == r.pattern

/-- The row of Table OP an instruction belongs to (R95). -/
def rowOf (i : Instr) : OpRow :=
  match i with
  | .cls => ⟨0xFFFF, 0x00E0⟩
  | .ret => ⟨0xFFFF, 0x00EE⟩
  | .jp _ => ⟨0xF000, 0x1000⟩
  | .call _ => ⟨0xF000, 0x2000⟩
  | .seImm _ _ => ⟨0xF000, 0x3000⟩
  | .sneImm _ _ => ⟨0xF000, 0x4000⟩
  | .seReg _ _ => ⟨0xF00F, 0x5000⟩
  | .ldImm _ _ => ⟨0xF000, 0x6000⟩
  | .addImm _ _ => ⟨0xF000, 0x7000⟩
  | .ldReg _ _ => ⟨0xF00F, 0x8000⟩
  | .orReg _ _ => ⟨0xF00F, 0x8001⟩
  | .andReg _ _ => ⟨0xF00F, 0x8002⟩
  | .xorReg _ _ => ⟨0xF00F, 0x8003⟩
  | .addReg _ _ => ⟨0xF00F, 0x8004⟩
  | .sub _ _ => ⟨0xF00F, 0x8005⟩
  | .shr _ _ => ⟨0xF00F, 0x8006⟩
  | .subn _ _ => ⟨0xF00F, 0x8007⟩
  | .shl _ _ => ⟨0xF00F, 0x800E⟩
  | .sneReg _ _ => ⟨0xF00F, 0x9000⟩
  | .ldI _ => ⟨0xF000, 0xA000⟩
  | .jpV0 _ => ⟨0xF000, 0xB000⟩
  | .rnd _ _ => ⟨0xF000, 0xC000⟩
  | .drw _ _ _ => ⟨0xF000, 0xD000⟩
  | .skp _ => ⟨0xF0FF, 0xE09E⟩
  | .sknp _ => ⟨0xF0FF, 0xE0A1⟩
  | .ldVxDt _ => ⟨0xF0FF, 0xF007⟩
  | .ldVxK _ => ⟨0xF0FF, 0xF00A⟩
  | .ldDtVx _ => ⟨0xF0FF, 0xF015⟩
  | .ldStVx _ => ⟨0xF0FF, 0xF018⟩
  | .addI _ => ⟨0xF0FF, 0xF01E⟩
  | .ldF _ => ⟨0xF0FF, 0xF029⟩
  | .ldB _ => ⟨0xF0FF, 0xF033⟩
  | .ldMemVx _ => ⟨0xF0FF, 0xF055⟩
  | .ldVxMem _ => ⟨0xF0FF, 0xF065⟩

/-- Table OP (R95): its 34 rows, in the table's order. -/
def opTable : List OpRow :=
  [⟨0xFFFF, 0x00E0⟩, ⟨0xFFFF, 0x00EE⟩, ⟨0xF000, 0x1000⟩, ⟨0xF000, 0x2000⟩, ⟨0xF000, 0x3000⟩, ⟨0xF000, 0x4000⟩] ++
  [⟨0xF00F, 0x5000⟩, ⟨0xF000, 0x6000⟩, ⟨0xF000, 0x7000⟩, ⟨0xF00F, 0x8000⟩, ⟨0xF00F, 0x8001⟩, ⟨0xF00F, 0x8002⟩] ++
  [⟨0xF00F, 0x8003⟩, ⟨0xF00F, 0x8004⟩, ⟨0xF00F, 0x8005⟩, ⟨0xF00F, 0x8006⟩, ⟨0xF00F, 0x8007⟩, ⟨0xF00F, 0x800E⟩] ++
  [⟨0xF00F, 0x9000⟩, ⟨0xF000, 0xA000⟩, ⟨0xF000, 0xB000⟩, ⟨0xF000, 0xC000⟩, ⟨0xF000, 0xD000⟩, ⟨0xF0FF, 0xE09E⟩] ++
  [⟨0xF0FF, 0xE0A1⟩, ⟨0xF0FF, 0xF007⟩, ⟨0xF0FF, 0xF00A⟩, ⟨0xF0FF, 0xF015⟩, ⟨0xF0FF, 0xF018⟩, ⟨0xF0FF, 0xF01E⟩] ++
  [⟨0xF0FF, 0xF029⟩, ⟨0xF0FF, 0xF033⟩, ⟨0xF0FF, 0xF055⟩, ⟨0xF0FF, 0xF065⟩]

/-! ## The opcode table's numbering -/

/-- The instruction word whose low `nbits` bits are those of `w` and whose other bits are 0. The table numbers bit 0 as the
least significant bit of the (only) word of an instruction (R6, R90). -/
def tableWord (nbits w : Nat) : Word := BitVec.ofNat 16 (w % 2 ^ nbits)

/-- What the decoder reads from the table's word `w`, laid out as the hardware stores it: high byte first (R63). -/
def decodeTableWord (nbits w : Nat) : Option Instr :=
  match decodeBytes [highByte (tableWord nbits w), lowByte (tableWord nbits w)] with
  | .ok (i, _) => some i
  | .error _ => none

end Sys2Proof
end

