-- ==== Sys2Proof/Machine/State.lean ====
section
/-! DEFINITION. The state of one core (Table S of rule R20), the faults (Table FLT of rule R241), and the state after
`construct()` (Table RST of rule R33). Nothing else is state (R20, R31), but for `rndCount`, the model's own (log 1). -/

namespace Sys2Proof.Machine

/-- Why a step, or a `load`, ends in a fault (Table FLT, R241). A fault is an OUTPUT of the call that meets it, not stored
in the core (R31, R250): the state after it is the one before it with REDRAW cleared (R126), which
`Sys2Proof.Machine.hostStep` gives. Every step fault reports the pc of the faulting instruction and, when the fetch
succeeded, its word (R241; log 12). All are the spec's own faults, so stopping here is SAFE: the hardware stops too (log 4). -/
inductive Fault where
  /-- Code 1 (R242). Raised by decoding, in `fetchInstr`: the word matches no row of Table OP. Safe. -/
  | invalidInstruction (w pc : Word)
  /-- Code 2 (R243). Raised by the fetch (then `w` is none), DRW, LD_B, LD_MEM_VX, LD_VX_MEM: `a` is the lowest address
  above 4095 the access would have touched. Safe. -/
  | memoryFault (a : Nat) (pc : Word) (w : Option Word)
  /-- Code 3 (R244). Raised by DRW: `c` is the first cell above 2047 in row-then-bit order. Safe. -/
  | framebufferFault (c : Nat) (pc w : Word)
  /-- Code 4 (R245). Raised by CALL with SP = 16. Safe. -/
  | stackOverflow (pc w : Word)
  /-- Code 5 (R246). Raised by RET with SP = 0. Safe. -/
  | stackUnderflow (pc w : Word)
  /-- Code 6 (R247). Raised by SKP and SKNP: the register value `k` is above 15. Safe. -/
  | keyIndexFault (k : Byte) (pc w : Word)
  /-- Code 7 (R248). Raised by the host's `load` only, never by a step: an image of `len` > 3584 bytes. Safe. -/
  | loadOverflow (len : Nat)
  deriving DecidableEq, Repr

/-- Why the model has no meaning to give. -/
inductive Refusal where
  /-- An instruction without a meaning yet, rejected by name in `exec`. Safe. No arm of `exec` raises it in this model. -/
  | notModelled (mnemonic : String)
  deriving DecidableEq, Repr

/-- The architectural state (Table S, R20). -/
structure State where
  /-- `MEM` (R30): the cells that differ from the reset contents, in the canonical form `Memory.wf` (log 22). -/
  mem : List Host.Cell
  /-- `V0` to `VF` (R21); `VF` is the flag register too (R22). -/
  v : Vector Byte 16
  /-- The index register `I` (R23). -/
  i : Word
  /-- The program counter `PC` (R24). -/
  pc : Word
  /-- `STACK`: 16 return addresses (R25). -/
  stack : Vector Word 16
  /-- `SP`, 0 to 16: how many return addresses are held (R25; log 19). -/
  sp : Fin 17
  /-- The delay timer `DT` (R26). -/
  dt : Byte
  /-- The sound timer `ST` (R26). -/
  st : Byte
  /-- `FB` (R27): 32 rows of 64 cells, bit `c` of a row being column `c` (log 24). -/
  fb : Vector (BitVec 64) 32
  /-- `KEY`: the 16 key flags, true when pressed (R29). -/
  key : Vector Bool 16
  /-- `REDRAW` (R28). -/
  redraw : Bool
  /-- THE MODEL'S OWN: how many bytes of the random source have been consumed (R128; log 1). -/
  rndCount : Nat
  deriving DecidableEq, Repr

/-- The state after `construct()` (Table RST, R33, R280). Memory lists nothing: an unlisted address reads as its reset
contents, the font and zeros (`resetByte`). The values of I, SP, KEY, REDRAW and of memory outside the font are the spec's
decision D15 (log 3); `rndCount` is the model's (log 1). -/
def State.reset : State where
  mem := []
  v := Vector.replicate 16 0x00#8
  i := 0x0000#16
  pc := 0x0200#16
  stack := Vector.replicate 16 0x0000#16
  sp := 0
  dt := 0x00#8
  st := 0x00#8
  fb := Vector.replicate 32 0#64
  key := Vector.replicate 16 false
  redraw := false
  rndCount := 0

end Sys2Proof.Machine
end

