-- ==== Sys2Proof/Machine/Ops.lean ====
section
/-! DEFINITION. The named operations over memory, registers, stack, framebuffer, keys and timers; raising a fault; fetching
an instruction. Every read and write of the state by an instruction or by the host goes through these. -/

namespace Sys2Proof.Machine

/-- The outcome of a step, of an instruction and of `load`. -/
abbrev Result := Host.Outcome State Fault Refusal

/-! ## Memory: 4096 bytes (R30, R60 to R73) -/

/-- What an address reads as when nothing has been written to it since reset (R33, R34, R37): the font in the first 80
bytes, zero elsewhere (D15; log 3). -/
def resetByte (a : Nat) : Byte := font.getD a 0x00#8

/-- The canonical form of memory (log 22): addresses strictly rising, each below 4096, and no cell that equals its reset
contents. -/
abbrev Memory.wf (m : List Host.Cell) : Prop :=
  m.Pairwise (fun c d => c.1 < d.1) ∧ ∀ c ∈ m, c.1 < Config.memSize ∧ c.2 ≠ resetByte c.1

/-- `MEM[a]` (R30, R67). -/
def Memory.read (m : List Host.Cell) (a : Nat) : Byte :=
  match m with
  | [] => resetByte a
  | c :: rest => if c.1 = a then c.2 else Memory.read rest a

/-- Memory with no cell listed at `a`. -/
def Memory.erase (m : List Host.Cell) (a : Nat) : List Host.Cell := m.filter (fun c => c.1 != a)

/-- A cell put in its place among rising addresses. -/
def Memory.insert (m : List Host.Cell) (a : Nat) (b : Byte) : List Host.Cell :=
  match m with
  | [] => [(a, b)]
  | c :: rest => if a < c.1 then (a, b) :: c :: rest else c :: Memory.insert rest a b

/-- `MEM[a] <- b` (R8, R66): only the addressed byte changes, and the canonical form is kept. -/
def Memory.write (m : List Host.Cell) (a : Nat) (b : Byte) : List Host.Cell :=
  if b = resetByte a then Memory.erase m a else Memory.insert (Memory.erase m a) a b

/-- `len` bytes read from `base` upward (R65, R73). -/
def Memory.readBytes (m : List Host.Cell) (base len : Nat) : List Byte :=
  match len with
  | 0 => []
  | k + 1 => Memory.read m base :: Memory.readBytes m (base + 1) k

/-- Bytes written from `base` upward (R65, R71, R73). -/
def Memory.writeBytes (m : List Host.Cell) (base : Nat) (bytes : List Byte) : List Host.Cell :=
  match bytes with
  | [] => m
  | b :: rest => Memory.writeBytes (Memory.write m base b) (base + 1) rest

/-- R62, R72, R243: the lowest address above 4095 among the `len` addresses from `base`, if there is one. The address is
an unbounded integer and never wraps (R8, D22). -/
def badAddress (base len : Nat) : Option Nat :=
  if 0 < len ∧ 4095 < base + len - 1 then some (max base 4096) else none

/-! ## Reading and writing the fields of the state -/

/-- `V[r]` (R7, R21). -/
def State.readV (s : State) (r : RegName) : Byte := s.v[r.toNat]

/-- `V[r] <- b` (R7, R21). -/
def State.setV (s : State) (r : RegName) (b : Byte) : State := { s with v := s.v.set r.toNat b }

/-- `VF`, the flag register (R22). -/
def flagReg : RegName := 0xF#4

/-- `V0`, which BNNN adds to its target (R21, R151). -/
def offsetReg : RegName := 0x0#4

/-- `I <- w` (R23). -/
def State.setI (s : State) (w : Word) : State := { s with i := w }

/-- `PC <- w` (R7, R24). -/
def State.setPc (s : State) (w : Word) : State := { s with pc := w }

/-- `PC <- PC + 2`: on to the next instruction (R124). -/
def State.advance (s : State) : State := s.setPc (s.pc + 2)

/-- R124, the conditional skips: `PC + 4` when the condition holds, else `PC + 2`. -/
def State.skipIf (s : State) (cond : Bool) : State := s.setPc (if cond then s.pc + 4 else s.pc + 2)

/-- The whole memory replaced. -/
def State.setMem (s : State) (m : List Host.Cell) : State := { s with mem := m }

/-- `MEM[a]` (R30). -/
def State.readMem (s : State) (a : Nat) : Byte := Memory.read s.mem a

/-- `DT <- b` (R26, R221). -/
def State.setDt (s : State) (b : Byte) : State := { s with dt := b }

/-- `ST <- b` (R26, R222). -/
def State.setSt (s : State) (b : Byte) : State := { s with st := b }

/-- `REDRAW <- b` (R28). -/
def State.setRedraw (s : State) (b : Bool) : State := { s with redraw := b }

/-- The whole framebuffer replaced (R27). -/
def State.setFb (s : State) (fb : Vector (BitVec 64) 32) : State := { s with fb := fb }

/-- `KEY[k]` for an index 0 to 15 (R29). -/
def State.readKey (s : State) (k : Nibble) : Bool := s.key[k.toNat]

/-- `KEY[k] <- b` (R29, R256). -/
def State.setKey (s : State) (k : Nibble) (b : Bool) : State := { s with key := s.key.set k.toNat b }

/-- The least index of a pressed key, if any is pressed: the scan "in ascending index order" of R230. -/
def State.firstKey (s : State) : Option Nat := s.key.toList.findIdx? id

/-- One byte of the random source has been consumed (R128). -/
def State.countRnd (s : State) : State := { s with rndCount := s.rndCount + 1 }

/-! ## The call stack (R25) -/

/-- R152: `STACK[SP] <- a; SP <- SP + 1`; nothing when SP = 16. -/
def State.pushReturn (s : State) (a : Word) : Option State :=
  if h : s.sp.val < 16 then
    some { s with stack := s.stack.set s.sp.val a, sp := ⟨s.sp.val + 1, Nat.succ_lt_succ h⟩ }
  else none

/-- R153: `SP <- SP - 1` and the return address at the new SP; nothing when SP = 0. The slot keeps its value (R25). -/
def State.popReturn (s : State) : Option (Word × State) :=
  if h : 0 < s.sp.val then
    some (s.stack[s.sp.val - 1]'(by omega), { s with sp := ⟨s.sp.val - 1, by omega⟩ })
  else none

/-! ## Registers in a block (R204, R205) -/

/-- `V[0]` to `V[count-1]` as bytes, V0 first (R204). -/
def State.firstRegs (s : State) (count : Nat) : List Byte := s.v.toList.take count

/-- `for k in 0 .. count-1: V[k] <- MEM[base + k]`, ascending (R205). -/
def State.loadRegs (s : State) (base count : Nat) : State :=
  match count with
  | 0 => s
  | k + 1 => (s.loadRegs base k).setV (BitVec.ofNat 4 k) (s.readMem (base + k))

/-! ## The framebuffer (R27, R141) -/

/-- `FB[c]` for a cell index `c = row*64 + column` (R27); false beyond cell 2047. -/
def fbCell (fb : Vector (BitVec 64) 32) (c : Nat) : Bool := (fb[c / 64]?.getD 0#64).getLsbD (c % 64)

/-- `FB[c] <- FB[c] xor 1` (R141). -/
def fbFlip (fb : Vector (BitVec 64) 32) (c : Nat) : Vector (BitVec 64) 32 :=
  fb.setIfInBounds (c / 64) (fb[c / 64]?.getD 0#64 ^^^ (1#64 <<< (c % 64)))

/-- Every cell 0 (R140). -/
def fbClear : Vector (BitVec 64) 32 := Vector.replicate 32 0#64

/-- The drawing loop of R141 over a list of cells: each is tested for collision, then flipped. -/
def fbDraw (fb : Vector (BitVec 64) 32) (coll : Bool) (cells : List Nat) : Vector (BitVec 64) 32 × Bool :=
  match cells with
  | [] => (fb, coll)
  | c :: rest => fbDraw (fbFlip fb c) (coll || fbCell fb c) rest

/-- The first cell index above 2047 in a list (R141, R244). -/
def badCell (cells : List Nat) : Option Nat := cells.find? (fun c => decide (2047 < c))

/-- The 2048 cells in index order, as the host's `framebuffer()` shows them (R257). -/
def State.cells (s : State) : List Bool := (List.range Config.fbCells).map (fbCell s.fb)

/-! ## Timers (R254) -/

/-- One count down, floored at 0 (R26, R254). -/
def countDown (t : Byte) : Byte := if t = 0x00#8 then t else t - 1

/-! ## Raising a fault (R126, R250)

There is no handler inside the machine: a fault ends the call with the fault as its result, and no write of the instruction
is kept. Nothing returns from one (R251). -/

/-- `raise f` (R8, R250): the instruction ends, and the host is told `f`. -/
def raise (f : Fault) : Result := .fault f

/-- The state after a faulting step (R126): as before it, except REDRAW = 0. -/
def State.afterFault (s : State) : State := s.setRedraw false

/-! ## The step's first three actions (R121 to R123) -/

/-- R121 (1): `REDRAW <- 0`. -/
def State.beginStep (s : State) : State := s.setRedraw false

/-- R122: `w <- MemRead(PC, 2)`, high byte at the lower address; a MemoryFault when PC > 4094. -/
def fetchWord (s : State) : Except Fault Word :=
  match badAddress s.pc.toNat 2 with
  | some a => .error (.memoryFault a s.pc none)
  | none => .ok (wordOfBytes (s.readMem s.pc.toNat) (s.readMem (s.pc.toNat + 1)))

/-- R122, R123: fetch and decode; InvalidInstruction when no row of Table OP matches (R242). -/
def fetchInstr (s : State) : Except Fault Instr :=
  match fetchWord s with
  | .error f => .error f
  | .ok w =>
    match decode w with
    | .ok i => .ok i
    | .error _ => .error (.invalidInstruction w s.pc)

/-- A word stored where the next step fetches: its bytes at PC and PC + 1 (R63). A PC above 4094 fetches nothing (R122),
so it is first moved to the entry offset (log 18). -/
def State.placeWord (s : State) (w : Word) : State :=
  let t := if 4094 < s.pc.toNat then s.setPc (BitVec.ofNat 16 Config.entry) else s
  t.setMem (Memory.writeBytes t.mem t.pc.toNat [highByte w, lowByte w])

end Sys2Proof.Machine
end

