-- ==== Sys2Proof/Machine/Operands.lean ====
section
/-! DEFINITION. The operand forms: immediates and addresses widened with zeros (R93), the index register as a base (R73),
the font address of a digit (R202), decimal digits (R203), and the cells of a sprite (R141). -/

namespace Sys2Proof.Machine

/-- `zext_16(nnn)` (R6, R93). -/
def addrWord (nnn : Addr) : Word := nnn.setWidth 16

/-- `zext_16` of a byte (R6, R151). -/
def byteWord (b : Byte) : Word := b.setWidth 16

/-- The base address of a data access: I as an unbounded integer (R8, R73). -/
def State.indexBase (s : State) : Nat := s.i.toNat

/-- R204, R205: how many registers `0 .. x` are. -/
def regCount (x : RegName) : Nat := x.toNat + 1

/-- R202: `FONT_BASE + 5 * V[x][3:0]`. -/
def glyphAddress (digit : Byte) : Word := BitVec.ofNat 16 (Config.fontBase + Config.glyphSize * (digit.toNat % 16))

/-- R203: hundreds, tens and ones digit, one byte each. -/
def bcdDigits (value : Byte) : List Byte :=
  [BitVec.ofNat 8 (value.toNat / 100), BitVec.ofNat 8 (value.toNat / 10 % 10), BitVec.ofNat 8 (value.toNat % 10)]

/-- R141: the cells of one sprite row at row `cy`, leftmost bit (bit 7) first: `cy*64 + (cx + b)` for each set bit
`row[7-b]`, on unbounded integers (D8, D9; log 11). -/
def rowCells (row : Byte) (cx cy : Nat) : List Nat :=
  ((List.range 8).filter (fun b => row.getLsbD (7 - b))).map (fun b => cy * Config.fbWidth + (cx + b))

/-- R141: the cells of a sprite, rows downward from `cy`, in row-then-bit order. -/
def spriteCells (rows : List Byte) (cx cy : Nat) : List Nat :=
  match rows with
  | [] => []
  | row :: rest => rowCells row cx cy ++ spriteCells rest cx (cy + 1)

end Sys2Proof.Machine
end

