-- ==== Sys2Proof/Machine/Flags.lean ====
section
/-! DEFINITION. The values written to VF (R22), each 0 or 1. -/

namespace Sys2Proof.Machine

/-- A flag as the byte VF receives. -/
def flagByte (b : Bool) : Byte := if b then 0x01#8 else 0x00#8

/-- R190: carry out of `a + b`, "1 on unsigned 8-bit overflow else 0". -/
def carryFlag (a b : Byte) : Byte := flagByte (decide (255 < a.toNat + b.toNat))

/-- R191, R192: not-borrow of `a - b`, "0 on borrow, 1 otherwise". -/
def notBorrowFlag (a b : Byte) : Byte := flagByte (decide (¬ a.toNat < b.toNat))

/-- R183: the bit shifted out at the bottom. -/
def lowBitFlag (a : Byte) : Byte := flagByte (a.getLsbD 0)

/-- R184: the bit shifted out at the top. -/
def highBitFlag (a : Byte) : Byte := flagByte (a.getLsbD 7)

/-- R201: 1 when the sum exceeds 0xFFF, else 0 (D6; log 10). -/
def rangeFlag (sum : Nat) : Byte := flagByte (decide (0xFFF < sum))

end Sys2Proof.Machine
end

