-- ==== Sys2Proof/Machine/Constant.lean ====
section
/-! DEFINITION. The constant and assignment instructions (44_constant_assignment.md): LD_IMM, ADD_IMM, LD_REG. -/

namespace Sys2Proof.Machine

/-- `V[x] <- b; PC <- PC + 2`: a register result with no flag, shared by every instruction that writes one register. -/
def writeReg (x : RegName) (b : Byte) (s : State) : Result := .next (s.setV x b).advance

/-- LD_IMM (R170). -/
def execLdImm (x : RegName) (kk : Byte) (s : State) : Result := writeReg x kk s

/-- ADD_IMM (R171): wrapping, no carry flag. -/
def execAddImm (x : RegName) (kk : Byte) (s : State) : Result := writeReg x (s.readV x + kk) s

/-- LD_REG (R172). -/
def execLdReg (x y : RegName) (s : State) : Result := writeReg x (s.readV y) s

end Sys2Proof.Machine
end

