-- ==== Sys2Proof/Machine/Bitwise.lean ====
section
/-! DEFINITION. The bitwise instructions (45_bitwise.md): OR, AND, XOR, SHR, SHL. -/

namespace Sys2Proof.Machine

/-- `V[F] <- flag; V[x] <- b; PC <- PC + 2`: the flag is written first and the result second, so that with `x = F` the
result stays (R130; D4, log 8). The arguments are computed from the state before either write. -/
def writeFlagThenReg (x : RegName) (flag b : Byte) (s : State) : Result :=
  .next ((s.setV flagReg flag).setV x b).advance

/-- OR (R180). -/
def execOrReg (x y : RegName) (s : State) : Result := writeReg x (s.readV x ||| s.readV y) s

/-- AND (R181). -/
def execAndReg (x y : RegName) (s : State) : Result := writeReg x (s.readV x &&& s.readV y) s

/-- XOR (R182). -/
def execXorReg (x y : RegName) (s : State) : Result := writeReg x (s.readV x ^^^ s.readV y) s

/-- SHR (R183): Vx is shifted in place and `y` is ignored (D5; log 9). -/
def execShr (x _y : RegName) (s : State) : Result := writeFlagThenReg x (lowBitFlag (s.readV x)) (s.readV x >>> 1) s

/-- SHL (R184): Vx is shifted in place and `y` is ignored (D5; log 9). -/
def execShl (x _y : RegName) (s : State) : Result := writeFlagThenReg x (highBitFlag (s.readV x)) (s.readV x <<< 1) s

end Sys2Proof.Machine
end

