-- ==== Sys2Proof/Machine/Arithmetic.lean ====
section
/-! DEFINITION. The arithmetic instructions (46_arithmetic.md): ADD_REG, SUB, SUBN. Results wrap modulo 256 (R193). -/

namespace Sys2Proof.Machine

/-- ADD_REG (R190). -/
def execAddReg (x y : RegName) (s : State) : Result :=
  writeFlagThenReg x (carryFlag (s.readV x) (s.readV y)) (s.readV x + s.readV y) s

/-- SUB (R191). -/
def execSub (x y : RegName) (s : State) : Result :=
  writeFlagThenReg x (notBorrowFlag (s.readV x) (s.readV y)) (s.readV x - s.readV y) s

/-- SUBN (R192). -/
def execSubn (x y : RegName) (s : State) : Result :=
  writeFlagThenReg x (notBorrowFlag (s.readV y) (s.readV x)) (s.readV y - s.readV x) s

end Sys2Proof.Machine
end

