-- ==== Sys2Proof/Machine/Display.lean ====
section
/-! DEFINITION. The display instructions (41_display.md): CLS and DRW. -/

namespace Sys2Proof.Machine

/-- CLS (R140). -/
def execCls (s : State) : Result := .next ((s.setFb fbClear).setRedraw true).advance

/-- The writes of DRW once its cells are known to be in range (R141): cells, VF, REDRAW, PC in that order. -/
def drawCells (s : State) (cells : List Nat) : State :=
  (((s.setFb (fbDraw s.fb false cells).1).setV flagReg (flagByte (fbDraw s.fb false cells).2)).setRedraw true).advance

/-- The cells a draw covers: the rows are read at I, the column is Vx, the row is Vy (R141). -/
def State.drawList (s : State) (x y : RegName) (n : Nibble) : List Nat :=
  spriteCells (Memory.readBytes s.mem s.indexBase n.toNat) (s.readV x).toNat (s.readV y).toNat

/-- DRW (R141). Both checks come before any write, memory first (R249). -/
def execDrw (x y : RegName) (n : Nibble) (s : State) : Result :=
  match badAddress s.indexBase n.toNat with
  | some a => raise (.memoryFault a s.pc (some (encode (.drw x y n))))
  | none =>
    match badCell (s.drawList x y n) with
    | some c => raise (.framebufferFault c s.pc (encode (.drw x y n)))
    | none => .next (drawCells s (s.drawList x y n))

end Sys2Proof.Machine
end

