-- ==== Sys2Proof/Machine/Flow.lean ====
section
/-! DEFINITION. The flow instructions (42_flow.md): JP, JP_V0, CALL, RET. -/

namespace Sys2Proof.Machine

/-- JP (R150). -/
def execJp (nnn : Addr) (s : State) : Result := .next (s.setPc (addrWord nnn))

/-- JP_V0 (R151): the sum is not reduced to 12 bits (D21; log 14). -/
def execJpV0 (nnn : Addr) (s : State) : Result := .next (s.setPc (addrWord nnn + byteWord (s.readV offsetReg)))

/-- CALL (R152). -/
def execCall (nnn : Addr) (s : State) : Result :=
  match s.pushReturn (s.pc + 2) with
  | none => raise (.stackOverflow s.pc (encode (.call nnn)))
  | some t => .next (t.setPc (addrWord nnn))

/-- RET (R153): no further increment of PC. -/
def execRet (s : State) : Result :=
  match s.popReturn with
  | none => raise (.stackUnderflow s.pc (encode .ret))
  | some (a, t) => .next (t.setPc a)

end Sys2Proof.Machine
end

