-- ==== Sys2Proof/Machine/KeyWait.lean ====
section
/-! DEFINITION. The blocking key wait (49_key_wait.md): LD_VX_K. -/

namespace Sys2Proof.Machine

/-- LD_VX_K (R230): the lowest pressed key, or no change at all while none is pressed; the step's result is then
AwaitingKeyInput, which `Sys2Proof.Machine.hostStep` reports (R125, R231; log 5). -/
def execLdVxK (x : RegName) (s : State) : Result :=
  match s.firstKey with
  | none => .next s
  | some k => writeReg x (BitVec.ofNat 8 k) s

end Sys2Proof.Machine
end

