-- ==== Sys2Proof/Machine/MemoryIndex.lean ====
section
/-! DEFINITION. The memory and index-register instructions (47_memory.md): LD_I, ADD_I, LD_F, LD_B, LD_MEM_VX, LD_VX_MEM. -/

namespace Sys2Proof.Machine

/-- LD_I (R200). -/
def execLdI (nnn : Addr) (s : State) : Result := .next (s.setI (addrWord nnn)).advance

/-- ADD_I (R201): the flag tests the unbounded sum; I keeps 16 bits of it (D6; log 10). -/
def execAddI (x : RegName) (s : State) : Result :=
  .next ((s.setV flagReg (rangeFlag (s.indexBase + (s.readV x).toNat))).setI (s.i + byteWord (s.readV x))).advance

/-- LD_F (R202): memory is not read. -/
def execLdF (x : RegName) (s : State) : Result := .next (s.setI (glyphAddress (s.readV x))).advance

/-- LD_B (R203): I is unchanged. -/
def execLdB (x : RegName) (s : State) : Result :=
  match badAddress s.indexBase 3 with
  | some a => raise (.memoryFault a s.pc (some (encode (.ldB x))))
  | none => .next (s.setMem (Memory.writeBytes s.mem s.indexBase (bcdDigits (s.readV x)))).advance

/-- LD_MEM_VX (R204): registers 0 to x stored from I upward, and I moves past them. -/
def execLdMemVx (x : RegName) (s : State) : Result :=
  match badAddress s.indexBase (regCount x) with
  | some a => raise (.memoryFault a s.pc (some (encode (.ldMemVx x))))
  | none =>
    .next ((s.setMem (Memory.writeBytes s.mem s.indexBase (s.firstRegs (regCount x)))).setI
      (s.i + BitVec.ofNat 16 (regCount x))).advance

/-- LD_VX_MEM (R205): registers 0 to x loaded from I upward, and I moves past them. -/
def execLdVxMem (x : RegName) (s : State) : Result :=
  match badAddress s.indexBase (regCount x) with
  | some a => raise (.memoryFault a s.pc (some (encode (.ldVxMem x))))
  | none => .next ((s.loadRegs s.indexBase (regCount x)).setI (s.i + BitVec.ofNat 16 (regCount x))).advance

end Sys2Proof.Machine
end

