-- ==== Sys2Proof/Machine/Skip.lean ====
section
/-! DEFINITION. The conditional skips (43_conditional_skip.md). No skip writes any state other than PC. -/

namespace Sys2Proof.Machine

/-- SE_IMM (R160). -/
def execSeImm (x : RegName) (kk : Byte) (s : State) : Result := .next (s.skipIf (s.readV x == kk))

/-- SNE_IMM (R161). -/
def execSneImm (x : RegName) (kk : Byte) (s : State) : Result := .next (s.skipIf (s.readV x != kk))

/-- SE_REG (R162). -/
def execSeReg (x y : RegName) (s : State) : Result := .next (s.skipIf (s.readV x == s.readV y))

/-- SNE_REG (R163). -/
def execSneReg (x y : RegName) (s : State) : Result := .next (s.skipIf (s.readV x != s.readV y))

/-- R164, R165: skip when the key whose index is `k` is in the wanted position; KeyIndexFault when `k` is above 15, with
no masking (D12; log 13). `w` is the word reported with the fault. -/
def skipOnKey (wanted : Bool) (k : Byte) (w : Word) (s : State) : Result :=
  if 15 < k.toNat then raise (.keyIndexFault k s.pc w)
  else .next (s.skipIf (s.readKey (k.setWidth 4) == wanted))

/-- SKP (R164). -/
def execSkp (x : RegName) (s : State) : Result := skipOnKey true (s.readV x) (encode (.skp x)) s

/-- SKNP (R165). -/
def execSknp (x : RegName) (s : State) : Result := skipOnKey false (s.readV x) (encode (.sknp x)) s

end Sys2Proof.Machine
end

