-- ==== Sys2Proof/Machine/TimerRandom.lean ====
section
/-! DEFINITION. The timer and random instructions (48_timer_random.md): LD_VX_DT, LD_DT_VX, LD_ST_VX, RND. -/

namespace Sys2Proof.Machine

/-- LD_VX_DT (R220). -/
def execLdVxDt (x : RegName) (s : State) : Result := writeReg x s.dt s

/-- LD_DT_VX (R221). -/
def execLdDtVx (x : RegName) (s : State) : Result := .next (s.setDt (s.readV x)).advance

/-- LD_ST_VX (R222). -/
def execLdStVx (x : RegName) (s : State) : Result := .next (s.setSt (s.readV x)).advance

/-- R223 for a given byte `r` of the random source: `V[x] <- r & kk`, and one byte has been consumed (R128). -/
def rndWith (r : Byte) (x : RegName) (kk : Byte) (s : State) : Result := writeReg x (r &&& kk) s.countRnd

/-- RND (R223): the byte is the free value `Config.rnd` at the count of bytes consumed before (D25; log 1). -/
def execRnd (x : RegName) (kk : Byte) (s : State) : Result := rndWith (Config.rnd s.rndCount) x kk s

end Sys2Proof.Machine
end

