-- ==== Sys2Proof/Machine/Step.lean ====
section
/-! DEFINITION. One `step()` (R120, R121). -/

namespace Sys2Proof.Machine

/-- R121: clear REDRAW, fetch, decode, execute. A fault of any of these ends the step (R126, R250); an FX0A with no key
pressed answers a next state in which only REDRAW may differ (R125, R230). -/
def step (s : State) : Host.Outcome State Fault Refusal :=
  match fetchInstr s.beginStep with
  | .error f => raise f
  | .ok i => exec i s.beginStep

/-- The state with the table's word `w` stored where the next step fetches (log 18). -/
def State.withFetchWord (s : State) (nbits w : Nat) : State := s.placeWord (tableWord nbits w)

end Sys2Proof.Machine
end

