-- ==== Sys2Proof/Machine/Transactions.lean ====
section
/-! DEFINITION. The host's transactions (R35, R262, R263): each is atomic, and a host schedule is any list of them (D29;
log 16). -/

namespace Sys2Proof.Machine

/-! ## step, with its result (R125) -/

/-- What `step()` reports to the host (R125). It is an output, not stored in the core (R31). -/
inductive StepResult where
  /-- An instruction completed. -/
  | running
  /-- The instruction at PC is FX0A and no key is pressed (R230, R231). -/
  | awaitingKeyInput
  /-- A fault was raised (R250). -/
  | fault (f : Fault)
  /-- The model gives the instruction no meaning; no instruction of this model does so. -/
  | refused (r : Refusal)
  deriving DecidableEq, Repr

/-- R231: this step fetches an FX0A and finds all 16 flags 0. -/
def State.awaitsKey (s : State) : Bool :=
  match fetchInstr s.beginStep with
  | .ok (.ldVxK _) => s.firstKey.isNone
  | _ => false

/-- The `step()` transaction (R120, R125): the next state and the result. After a fault the state is as before the step,
except REDRAW = 0 (R126, R250; log 4). -/
def hostStep (s : State) : State × StepResult :=
  match step s with
  | .next t => (t, if s.awaitsKey then .awaitingKeyInput else .running)
  | .fault f => (s.afterFault, .fault f)
  | .refused r => (s, .refused r)

/-! ## The other transactions -/

/-- `load(bytes)` (R71, R248, R282): the image copied to 0x200 upward, or LoadOverflow and no change. -/
def load (bytes : List Byte) (s : State) : Result :=
  if imageFits bytes then .next (s.setMem (Memory.writeBytes s.mem Config.entry bytes))
  else raise (.loadOverflow bytes.length)

/-- `advanceTimers()`, the tick (R254). -/
def advanceTimers (s : State) : State := (s.setDt (countDown s.dt)).setSt (countDown s.st)

/-- `setKeyPressed(index)` (R256); the index port is 4 bits wide (D19; log 17). -/
def setKeyPressed (k : Nibble) (s : State) : State := s.setKey k true

/-- `setKeyReleased(index)` (R256). -/
def setKeyReleased (k : Nibble) (s : State) : State := s.setKey k false

/-- `consumeRedrawFlag()` (R258): the flag is returned, then cleared (D17; log 17). -/
def consumeRedrawFlag (s : State) : State × Bool := (s.setRedraw false, s.redraw)

/-! ## Any transaction, and a schedule of them (R262) -/

/-- The operations of R262, and the ST tap of R255. -/
inductive Transaction where
  | construct
  | load (bytes : List Byte)
  | step
  | advanceTimers
  | setKeyPressed (k : Nibble)
  | setKeyReleased (k : Nibble)
  | framebuffer
  | consumeRedrawFlag
  | soundTimer
  deriving DecidableEq, Repr

/-- What the host learns from a transaction (R35). -/
inductive Response where
  /-- Done, with nothing to report (construct, tick, keys, a load that fits). -/
  | ok
  /-- `load` ended in LoadOverflow (R248). -/
  | loadFault (f : Fault)
  /-- The result of a step (R125). -/
  | result (r : StepResult)
  /-- The 2048 cells (R257). -/
  | cells (view : List Bool)
  /-- The value REDRAW had (R258). -/
  | redraw (b : Bool)
  /-- The value of ST (R255). -/
  | sound (b : Byte)
  deriving DecidableEq, Repr

/-- One transaction: the next state and what the host learns (R263). `construct` gives a new instance
(R280); the random source is outside it (R32), so the bytes consumed stay consumed (log 1). -/
def transact (t : Transaction) (s : State) : State × Response :=
  match t with
  | .construct => ({ State.reset with rndCount := s.rndCount }, .ok)
  | .load bytes =>
    match load bytes s with
    | .next u => (u, .ok)
    | .fault f => (s, .loadFault f)
    | .refused r => (s, .result (.refused r))
  | .step => ((hostStep s).1, .result (hostStep s).2)
  | .advanceTimers => (advanceTimers s, .ok)
  | .setKeyPressed k => (setKeyPressed k s, .ok)
  | .setKeyReleased k => (setKeyReleased k s, .ok)
  | .framebuffer => (s, .cells s.cells)
  | .consumeRedrawFlag => ((consumeRedrawFlag s).1, .redraw (consumeRedrawFlag s).2)
  | .soundTimer => (s, .sound s.st)

/-- A host schedule carried out in order (R262): the last state and all responses. -/
def runSchedule (ts : List Transaction) (s : State) : State × List Response :=
  match ts with
  | [] => (s, [])
  | t :: rest =>
    ((runSchedule rest (transact t s).1).1, (transact t s).2 :: (runSchedule rest (transact t s).1).2)

end Sys2Proof.Machine
end

