-- ==== Sys2Proof/Safety.lean ====
section
/-! DEFINITION. The terms claims use: the invariant of reachable states (R36 and what follows from the rules), a run that
meets no fault (R251), and the model's own end of a run (R295, D24; log 21). -/

namespace Sys2Proof.Safety

open Sys2Proof.Machine

/-- R24, R151: PC is at most 0x10FE, the largest value BNNN can give. -/
abbrev pcBounded (s : State) : Prop := s.pc.toNat ≤ 0x10FE

/-- R153: each held return address is "always in 2 to 4096". -/
abbrev returnsBounded (s : State) : Prop :=
  ∀ k : Fin 16, k.val < s.sp.val → 2 ≤ s.stack[k].toNat ∧ s.stack[k].toNat ≤ 4096

/-- The invariant of reachable states: memory in its canonical form, PC and the held return addresses in their ranges.
R36's `0 <= SP <= 16` and the ranges of the registers hold by the types of State's fields. -/
abbrev Inv (s : State) : Prop := Memory.wf s.mem ∧ pcBounded s ∧ returnsBounded s

/-- R251: `k` steps from here, none of which faults or is refused. -/
def runsFaultFree (k : Nat) (s : State) : Bool :=
  match k with
  | 0 => true
  | j + 1 =>
    match step s with
    | .next t => runsFaultFree j t
    | .fault _ => false
    | .refused _ => false

/-- THE MODEL'S OWN end of a run, not the hardware's (R295): PC addresses a jump to itself. -/
def selfJump (s : State) : Bool :=
  match fetchInstr s with
  | .ok (.jp nnn) => addrWord nnn == s.pc
  | _ => false

/-! ## The pieces of state, and what each instruction may write (Table S of R20) -/

/-- The rows of Table S, and the model's own count of random bytes. -/
inductive Part where
  | mem | v | i | pc | stack | sp | dt | st | fb | key | redraw | rnd
  deriving DecidableEq, Repr

/-- A piece of state is the same in two states. Memory is compared through the read of one byte at every address, the
registers through the read of every register. -/
def Part.same (p : Part) (s t : State) : Prop :=
  match p with
  | .mem => ∀ a, t.readMem a = s.readMem a
  | .v => ∀ r, t.readV r = s.readV r
  | .i => t.i = s.i
  | .pc => t.pc = s.pc
  | .stack => t.stack = s.stack
  | .sp => t.sp = s.sp
  | .dt => t.dt = s.dt
  | .st => t.st = s.st
  | .fb => t.fb = s.fb
  | .key => t.key = s.key
  | .redraw => t.redraw = s.redraw
  | .rnd => t.rndCount = s.rndCount

/-- Every piece of state not listed is the same in both states: the frame of an operation. -/
def sameBut (written : List Part) (s t : State) : Prop := ∀ p : Part, p ∉ written → p.same s t

/-- Table S read by rows of instructions: what an instruction that completes may write (R20, R124). -/
def mayWrite (i : Instr) : List Part :=
  match i with
  | .cls => [.fb, .redraw, .pc]
  | .ret => [.sp, .pc]
  | .jp _ | .jpV0 _ => [.pc]
  | .call _ => [.stack, .sp, .pc]
  | .seImm _ _ | .sneImm _ _ | .seReg _ _ | .sneReg _ _ | .skp _ | .sknp _ => [.pc]
  | .ldImm _ _ | .addImm _ _ | .ldReg _ _ | .orReg _ _ | .andReg _ _ | .xorReg _ _ => [.v, .pc]
  | .addReg _ _ | .sub _ _ | .subn _ _ | .shr _ _ | .shl _ _ => [.v, .pc]
  | .rnd _ _ => [.v, .rnd, .pc]
  | .drw _ _ _ => [.v, .fb, .redraw, .pc]
  | .ldVxDt _ | .ldVxK _ => [.v, .pc]
  | .ldDtVx _ => [.dt, .pc]
  | .ldStVx _ => [.st, .pc]
  | .ldI _ | .ldF _ => [.i, .pc]
  | .addI _ => [.v, .i, .pc]
  | .ldB _ => [.mem, .pc]
  | .ldMemVx _ => [.mem, .i, .pc]
  | .ldVxMem _ => [.v, .i, .pc]

/-- Does an instruction that completes write register `r`: its destination, or VF as its flag (R22)? -/
def mayWriteReg (i : Instr) (r : RegName) : Bool :=
  match i with
  | .ldImm x _ | .addImm x _ | .ldReg x _ | .orReg x _ | .andReg x _ | .xorReg x _ => r == x
  | .rnd x _ | .ldVxDt x | .ldVxK x => r == x
  | .addReg x _ | .sub x _ | .subn x _ | .shr x _ | .shl x _ => r == x || r == 0xF#4
  | .drw _ _ _ | .addI _ => r == 0xF#4
  | .ldVxMem x => decide (r.toNat ≤ x.toNat)
  | .cls | .ret | .jp _ | .jpV0 _ | .call _ => false
  | .seImm _ _ | .sneImm _ _ | .seReg _ _ | .sneReg _ _ | .skp _ | .sknp _ => false
  | .ldDtVx _ | .ldStVx _ | .ldI _ | .ldF _ | .ldB _ | .ldMemVx _ => false

/-- Table PCU (R124): the PC after an instruction that completes from `s`. -/
def pcAfter (i : Instr) (s : State) : Word :=
  match i with
  | .seImm x kk => if s.readV x = kk then s.pc + 4 else s.pc + 2
  | .sneImm x kk => if s.readV x = kk then s.pc + 2 else s.pc + 4
  | .seReg x y => if s.readV x = s.readV y then s.pc + 4 else s.pc + 2
  | .sneReg x y => if s.readV x = s.readV y then s.pc + 2 else s.pc + 4
  | .skp x => if s.readKey ((s.readV x).setWidth 4) then s.pc + 4 else s.pc + 2
  | .sknp x => if s.readKey ((s.readV x).setWidth 4) then s.pc + 2 else s.pc + 4
  | .jp nnn | .call nnn => BitVec.ofNat 16 nnn.toNat
  | .jpV0 nnn => BitVec.ofNat 16 (nnn.toNat + (s.readV 0x0#4).toNat)
  | .ret => s.stack[s.sp.val - 1]?.getD 0
  | .ldVxK _ => if s.key.toList.contains true then s.pc + 2 else s.pc
  | .cls | .ldImm _ _ | .addImm _ _ | .ldReg _ _ | .orReg _ _ | .andReg _ _ | .xorReg _ _ => s.pc + 2
  | .addReg _ _ | .sub _ _ | .subn _ _ | .shr _ _ | .shl _ _ | .rnd _ _ | .drw _ _ _ => s.pc + 2
  | .ldVxDt _ | .ldDtVx _ | .ldStVx _ | .ldI _ | .ldF _ | .addI _ => s.pc + 2
  | .ldB _ | .ldMemVx _ | .ldVxMem _ => s.pc + 2

/-- An instruction with a one-register result `b` and no other effect but PC + 2: it completes, register `x` holds `b`, and
all else is unchanged. -/
def writesOnly (i : Instr) (s : State) (x : RegName) (b : Byte) : Prop :=
  ∃ t, exec i s = .next t ∧ (∀ r, t.readV r = if r = x then b else s.readV r) ∧ t.pc = s.pc + 2 ∧ sameBut [.v, .pc] s t

/-- An instruction that writes its flag to VF and then its result `b` to register `x`: the result stays when `x` is VF. -/
def writesWithFlag (i : Instr) (s : State) (x : RegName) (b flag : Byte) : Prop :=
  ∃ t, exec i s = .next t ∧
    (∀ r, t.readV r = if r = x then b else if r = 0xF#4 then flag else s.readV r) ∧
    t.pc = s.pc + 2 ∧ sameBut [.v, .pc] s t

/-- An instruction that only moves PC, to `target`. -/
def jumpsTo (i : Instr) (s : State) (target : Word) : Prop :=
  ∃ t, exec i s = .next t ∧ t.pc = target ∧ sameBut [.pc] s t

/-! ## Sprites (R141) -/

/-- Cell `c` lies under a set bit of the sprite a draw from `s` would read: row `r`, bit `b` from the left. -/
def covered (s : State) (x y : RegName) (n : Nibble) (c : Nat) : Prop :=
  ∃ r, r < n.toNat ∧ ∃ b, b < 8 ∧ (s.readMem (s.indexBase + r)).getLsbD (7 - b) = true ∧
    c = ((s.readV y).toNat + r) * 64 + ((s.readV x).toNat + b)

/-! ## Fault reports (R241) -/

/-- The pc a step fault reports; `load` reports none. -/
def faultPc (f : Fault) : Option Word :=
  match f with
  | .invalidInstruction _ pc => some pc
  | .memoryFault _ pc _ => some pc
  | .framebufferFault _ pc _ => some pc
  | .stackOverflow pc _ => some pc
  | .stackUnderflow pc _ => some pc
  | .keyIndexFault _ pc _ => some pc
  | .loadOverflow _ => none

/-- The instruction word a step fault reports, if the fetch succeeded. -/
def faultWord (f : Fault) : Option Word :=
  match f with
  | .invalidInstruction w _ => some w
  | .memoryFault _ _ w => w
  | .framebufferFault _ _ w => some w
  | .stackOverflow _ w => some w
  | .stackUnderflow _ w => some w
  | .keyIndexFault _ _ w => some w
  | .loadOverflow _ => none

/-! ## Transactions (R263) -/

/-- What a step from `s` may change (R263): "REDRAW, plus what the instruction writes"; REDRAW alone when no instruction is
fetched. -/
def stepMayWrite (s : State) : List Part :=
  match fetchInstr s with
  | .ok i => .redraw :: mayWrite i
  | .error _ => [.redraw]

/-- What a transaction on `s` may change (R263). -/
def hostMayWrite (t : Transaction) (s : State) : List Part :=
  match t with
  | .load _ => [.mem]
  | .advanceTimers => [.dt, .st]
  | .setKeyPressed _ | .setKeyReleased _ => [.key]
  | .consumeRedrawFlag => [.redraw]
  | .framebuffer | .soundTimer => []
  | .construct => [.mem, .v, .i, .pc, .stack, .sp, .dt, .st, .fb, .key, .redraw]
  | .step => stepMayWrite s

end Sys2Proof.Safety
end

