-- ==== Sys2Proof/Certificates/Slice0/Obligations.lean ====
section
/-! DEFINITION. The statements for the provers, each a numbered rule of the spec or derived from some. Where a statement rests
on a decision the spec marks as its own (D<n>) or on an entry of the assumption log, its docstring says so. -/

open Sys2Proof Sys2Proof.Machine Sys2Proof.Safety

/-! ## Encoding -/

/-- R100: the three words the source prints, by their fields and as stored bytes. -/
def Obligations.SourceWordsDecode : Prop :=
  ((fieldsOf 0x6005#16).op = 6 ∧ (fieldsOf 0x6005#16).x = 0 ∧ (fieldsOf 0x6005#16).kk = 0x05 ∧
    decodeBytes [0x60, 0x05] = .ok (.ldImm 0 0x05, [])) ∧
  ((fieldsOf 0x6103#16).op = 6 ∧ (fieldsOf 0x6103#16).x = 1 ∧ (fieldsOf 0x6103#16).kk = 0x03 ∧
    decodeBytes [0x61, 0x03] = .ok (.ldImm 1 0x03, [])) ∧
  ((fieldsOf 0x8014#16).op = 8 ∧ (fieldsOf 0x8014#16).x = 0 ∧ (fieldsOf 0x8014#16).y = 1 ∧ (fieldsOf 0x8014#16).n = 4 ∧
    decodeBytes [0x80, 0x14] = .ok (.addReg 0 1, []))

/-- One word of each family, written out from Table OP, whose patterns the spec takes from general knowledge (D14, log 6). -/
def Obligations.FamilyWordsDecode : Prop :=
  decode 0x00E0#16 = .ok .cls ∧ decode 0xD125#16 = .ok (.drw 1 2 5) ∧
  decode 0x1204#16 = .ok (.jp 0x204) ∧ decode 0xB300#16 = .ok (.jpV0 0x300) ∧
  decode 0x220C#16 = .ok (.call 0x20C) ∧ decode 0x00EE#16 = .ok .ret ∧
  decode 0x3505#16 = .ok (.seImm 5 0x05) ∧ decode 0xE39E#16 = .ok (.skp 3) ∧
  decode 0x7102#16 = .ok (.addImm 1 0x02) ∧ decode 0x8126#16 = .ok (.shr 1 2) ∧
  decode 0x8127#16 = .ok (.subn 1 2) ∧ decode 0xF033#16 = .ok (.ldB 0) ∧
  decode 0xF307#16 = .ok (.ldVxDt 3) ∧ decode 0xC10F#16 = .ok (.rnd 1 0x0F) ∧ decode 0xF50A#16 = .ok (.ldVxK 5)

/-- Every instruction, with every operand, decodes from its own word, and from its two bytes followed by anything
(the patterns are D14's, log 6; an operand has the width of its field, log 23). -/
def Obligations.DecodeOfEncode : Prop :=
  ∀ (i : Instr) (rest : List Byte),
    decode (encode i) = .ok i ∧ decodeBytes (encodeBytes i ++ rest) = .ok (i, rest)

/-- A word that decodes is the word of what it decodes to: no bit of a valid word is dropped, the ignored field of the
shifts included, which the model keeps as an operand (log 23; the patterns are D13's and D14's, log 6, log 7). -/
def Obligations.EncodeOfDecode : Prop :=
  ∀ (w : Word) (i : Instr), decode w = .ok i → encode i = w

/-- R95, R101: a word decodes to an instruction of a row exactly when its masked bits are the row's, and a word is invalid
exactly when no row matches it (the rows are D13's and D14's, log 6, log 7). -/
def Obligations.TableDecidesDecoding : Prop :=
  (∀ (w : Word) (r : OpRow), r ∈ opTable → (matchesRow r w = true ↔ ∃ i, decode w = .ok i ∧ rowOf i = r)) ∧
  (∀ w : Word, decode w = .error (.invalidWord w) ↔ ∀ r ∈ opTable, matchesRow r w = false)

/-! ## The step -/

/-- R121 to R123: when the two bytes at PC, high byte first, decode to an instruction, the step is that instruction's
execution on the state with REDRAW cleared, PC odd or even (D21, log 14). -/
def Obligations.StepRunsDecodedInstruction : Prop :=
  ∀ (s : State) (i : Instr), s.pc.toNat ≤ 4094 →
    decode (wordOfBytes (s.readMem s.pc.toNat) (s.readMem (s.pc.toNat + 1))) = .ok i →
    step s = exec i { s with redraw := false }

/-- R122: a fetch with PC above 4094 faults with PC, or with 4096 when PC = 4095, and no word (D22, log 14). -/
def Obligations.FetchAbove4094Faults : Prop :=
  ∀ s : State,
    (s.pc.toNat = 4095 → step s = .fault (.memoryFault 4096 s.pc none)) ∧
    (4095 < s.pc.toNat → step s = .fault (.memoryFault s.pc.toNat s.pc none))

/-- R96, R242: a fetched word that matches no row of Table OP faults with the word and PC (the rows are D13's and D14's). -/
def Obligations.UnmatchedWordFaults : Prop :=
  ∀ (s : State) (w : Word), s.pc.toNat ≤ 4094 →
    w = wordOfBytes (s.readMem s.pc.toNat) (s.readMem (s.pc.toNat + 1)) →
    (∀ r ∈ opTable, matchesRow r w = false) →
    step s = .fault (.invalidInstruction w s.pc)

/-- R126, R250: after a faulting step everything but REDRAW is as before it, and REDRAW is 0 (D2, log 4). -/
def Obligations.FaultingStepIsPrecise : Prop :=
  ∀ (s : State) (f : Fault), step s = .fault f →
    (hostStep s).2 = .fault f ∧ (hostStep s).1.redraw = false ∧ sameBut [.redraw] s (hostStep s).1

/-- R127: a fault is a function of MEM, PC, V, I and SP: any state that agrees in these faults in the same way, whatever
its stack slots, timers, framebuffer, keys, REDRAW and random source; so a faulted core faults again
(the spec's inference from R126, which is D2; log 4). -/
def Obligations.FaultsRepeat : Prop :=
  (∀ (s t : State) (f : Fault), step s = .fault f →
    t.mem = s.mem → t.pc = s.pc → t.v = s.v → t.i = s.i → t.sp = s.sp → step t = .fault f) ∧
  (∀ (s : State) (f : Fault), step s = .fault f → step (hostStep s).1 = .fault f)

/-- R241: a step fault reports the PC of the faulting instruction, and the fetched word when there is one (D3, log 12). -/
def Obligations.FaultReportsPcAndWord : Prop :=
  ∀ (s : State) (f : Fault), step s = .fault f →
    faultPc f = some s.pc ∧
    faultWord f = (if s.pc.toNat ≤ 4094 then some (wordOfBytes (s.readMem s.pc.toNat) (s.readMem (s.pc.toNat + 1))) else none)

/-- R93, R95: no step is refused: every instruction of the table has a meaning for every operand. -/
def Obligations.StepNeverRefuses : Prop :=
  ∀ (s : State) (r : Refusal), step s ≠ .refused r

/-- R129: after a step REDRAW is 1 exactly when the step completed a CLS or a DRW. -/
def Obligations.RedrawExactlyAfterDisplay : Prop :=
  ∀ s : State, (hostStep s).1.redraw = true ↔
    (hostStep s).2 = .running ∧ (fetchInstr s = .ok .cls ∨ ∃ x y n, fetchInstr s = .ok (.drw x y n))

/-- R128: a step consumes one random byte when it executes RND, and none otherwise. The count is the model's own field
(log 1). -/
def Obligations.OnlyRndConsumes : Prop :=
  ∀ s : State,
    ((∃ x kk, fetchInstr s = .ok (.rnd x kk)) → (hostStep s).1.rndCount = s.rndCount + 1) ∧
    ((¬ ∃ x kk, fetchInstr s = .ok (.rnd x kk)) → (hostStep s).1.rndCount = s.rndCount)

/-- R124, Table PCU: the PC every completed instruction leaves. -/
def Obligations.PcFollowsTablePcu : Prop :=
  ∀ (i : Instr) (s t : State), exec i s = .next t → t.pc = pcAfter i s

/-- Table S of R20: an instruction that completes changes only the pieces of state the table lists for it. -/
def Obligations.WritesFollowTableS : Prop :=
  ∀ (i : Instr) (s t : State), exec i s = .next t → sameBut (mayWrite i) s t

/-- R22: an instruction that completes changes only its destination registers and, if it is one of the flag writers, VF. -/
def Obligations.RegistersWrittenAreNamed : Prop :=
  ∀ (i : Instr) (s t : State) (r : RegName), exec i s = .next t → mayWriteReg i r = false → t.readV r = s.readV r

/-! ## Reset -/

/-- Table RST (R33), and R281. I, SP, KEY, REDRAW and memory outside the font are the spec's decision D15 (log 3), the font
bytes its default D16 (log 2), `rndCount` the model's own (log 1). -/
def Obligations.ResetHoldsTableRst : Prop :=
  (∀ r, State.reset.readV r = 0) ∧ State.reset.i = 0 ∧ State.reset.pc = 0x200 ∧
  (∀ k : Fin 16, State.reset.stack[k] = 0) ∧ State.reset.sp = 0 ∧ State.reset.dt = 0 ∧ State.reset.st = 0 ∧
  (∀ c, c < 2048 → fbCell State.reset.fb c = false) ∧ (∀ k, State.reset.readKey k = false) ∧
  State.reset.redraw = false ∧
  (∀ (a : Nat) (h : a < font.length), State.reset.readMem a = font[a]) ∧ font.length = 80 ∧
  (∀ a, 0x50 ≤ a → State.reset.readMem a = 0) ∧
  step State.reset = .fault (.invalidInstruction 0x0000 0x0200)

/-! ## Constants and assignment -/

/-- R170: LD Vx, kk. -/
def Obligations.SetImmediateWritesRegister : Prop :=
  ∀ (s : State) (x : RegName) (kk : Byte),
    encode (.ldImm x kk) = 0x6#4 ++ (x ++ kk) ∧ writesOnly (.ldImm x kk) s x kk

/-- R171: ADD Vx, kk wraps modulo 256 and sets no flag (the word's pattern is D14's, log 6). -/
def Obligations.AddImmediateWraps : Prop :=
  ∀ (s : State) (x : RegName) (kk : Byte),
    encode (.addImm x kk) = 0x7#4 ++ (x ++ kk) ∧
    writesOnly (.addImm x kk) s x (BitVec.ofNat 8 (((s.readV x).toNat + kk.toNat) % 256))

/-- R172: LD Vx, Vy (the word's pattern is D14's, log 6). -/
def Obligations.CopyRegisterWritesRegister : Prop :=
  ∀ (s : State) (x y : RegName),
    encode (.ldReg x y) = 0x8#4 ++ (x ++ (y ++ 0x0#4)) ∧ writesOnly (.ldReg x y) s x (s.readV y)

/-! ## Bitwise -/

/-- R180, R181, R182: OR, AND, XOR, bit by bit, and no flag (the words' patterns
are D14's, log 6). -/
def Obligations.OrAndXorBitByBit : Prop :=
  ∀ (s : State) (x y : RegName),
    (encode (.orReg x y) = 0x8#4 ++ (x ++ (y ++ 0x1#4)) ∧
      ∃ b : Byte, (∀ k, b.getLsbD k = ((s.readV x).getLsbD k || (s.readV y).getLsbD k)) ∧ writesOnly (.orReg x y) s x b) ∧
    (encode (.andReg x y) = 0x8#4 ++ (x ++ (y ++ 0x2#4)) ∧
      ∃ b : Byte, (∀ k, b.getLsbD k = ((s.readV x).getLsbD k && (s.readV y).getLsbD k)) ∧ writesOnly (.andReg x y) s x b) ∧
    (encode (.xorReg x y) = 0x8#4 ++ (x ++ (y ++ 0x3#4)) ∧
      ∃ b : Byte, (∀ k, b.getLsbD k = ((s.readV x).getLsbD k ^^ (s.readV y).getLsbD k)) ∧ writesOnly (.xorReg x y) s x b)

/-- R183, R184: SHR and SHL move Vx by one bit, whatever `y` is (D5, log 9); the bit shifted out goes to VF, and with x = F
the result stays (D4, log 8). -/
def Obligations.ShiftsMoveOneBit : Prop :=
  ∀ (s : State) (x y : RegName),
    writesWithFlag (.shr x y) s x (BitVec.ofNat 8 ((s.readV x).toNat / 2)) (BitVec.ofNat 8 ((s.readV x).toNat % 2)) ∧
    writesWithFlag (.shl x y) s x (BitVec.ofNat 8 (2 * (s.readV x).toNat % 256)) (BitVec.ofNat 8 ((s.readV x).toNat / 128))

/-! ## Arithmetic -/

/-- R190: ADD Vx, Vy. The sum wraps, VF is the carry; with x = F the sum stays (R130's order, D4, log 8). -/
def Obligations.AddRegisterCarries : Prop :=
  ∀ (s : State) (x y : RegName),
    writesWithFlag (.addReg x y) s x (BitVec.ofNat 8 (((s.readV x).toNat + (s.readV y).toNat) % 256))
      (if 255 < (s.readV x).toNat + (s.readV y).toNat then 1 else 0)

/-- R191, R192: SUB and SUBN. The difference wraps, VF is 0 on borrow and 1 otherwise; with x = F the difference stays
(R130's order, D4, log 8). -/
def Obligations.SubtractsBorrow : Prop :=
  ∀ (s : State) (x y : RegName),
    writesWithFlag (.sub x y) s x (BitVec.ofNat 8 (((s.readV x).toNat + 256 - (s.readV y).toNat) % 256))
      (if (s.readV x).toNat < (s.readV y).toNat then 0 else 1) ∧
    writesWithFlag (.subn x y) s x (BitVec.ofNat 8 (((s.readV y).toNat + 256 - (s.readV x).toNat) % 256))
      (if (s.readV y).toNat < (s.readV x).toNat then 0 else 1)

/-! ## Conditional skips -/

/-- R160 to R163: SE and SNE move PC by 4 when the comparison holds and by 2 otherwise, and write nothing else (the
words' patterns are D14's, log 6). -/
def Obligations.CompareSkipsMovePc : Prop :=
  ∀ (s : State) (x y : RegName) (kk : Byte),
    (encode (.seImm x kk) = 0x3#4 ++ (x ++ kk) ∧
      (s.readV x = kk → jumpsTo (.seImm x kk) s (s.pc + 4)) ∧ (s.readV x ≠ kk → jumpsTo (.seImm x kk) s (s.pc + 2))) ∧
    (encode (.sneImm x kk) = 0x4#4 ++ (x ++ kk) ∧
      (s.readV x ≠ kk → jumpsTo (.sneImm x kk) s (s.pc + 4)) ∧ (s.readV x = kk → jumpsTo (.sneImm x kk) s (s.pc + 2))) ∧
    (encode (.seReg x y) = 0x5#4 ++ (x ++ (y ++ 0x0#4)) ∧
      (s.readV x = s.readV y → jumpsTo (.seReg x y) s (s.pc + 4)) ∧
      (s.readV x ≠ s.readV y → jumpsTo (.seReg x y) s (s.pc + 2))) ∧
    (encode (.sneReg x y) = 0x9#4 ++ (x ++ (y ++ 0x0#4)) ∧
      (s.readV x ≠ s.readV y → jumpsTo (.sneReg x y) s (s.pc + 4)) ∧
      (s.readV x = s.readV y → jumpsTo (.sneReg x y) s (s.pc + 2)))

/-- R164, R165: SKP and SKNP with the index of a key: the flag's level decides. -/
def Obligations.KeySkipsTestTheLevel : Prop :=
  ∀ (s : State) (x : RegName) (k : Nibble), (s.readV x).toNat = k.toNat →
    jumpsTo (.skp x) s (if s.readKey k then s.pc + 4 else s.pc + 2) ∧
    jumpsTo (.sknp x) s (if s.readKey k then s.pc + 2 else s.pc + 4)

/-- R164, R165, R247: SKP and SKNP with V[x] above 15 fault with the register's value (D12, log 13). -/
def Obligations.KeyIndexAbove15Faults : Prop :=
  ∀ (s : State) (x : RegName), 15 < (s.readV x).toNat →
    exec (.skp x) s = .fault (.keyIndexFault (s.readV x) s.pc (encode (.skp x))) ∧
    exec (.sknp x) s = .fault (.keyIndexFault (s.readV x) s.pc (encode (.sknp x)))

/-! ## Flow -/

/-- R150, R151: JP sets PC to nnn; JP V0 to nnn + V0, not reduced to 12 bits (D21, log 14). Nothing else is written. -/
def Obligations.JumpsSetPc : Prop :=
  ∀ (s : State) (nnn : Addr),
    jumpsTo (.jp nnn) s (BitVec.ofNat 16 nnn.toNat) ∧
    ∃ target : Word, target.toNat = nnn.toNat + (s.readV 0x0#4).toNat ∧ jumpsTo (.jpV0 nnn) s target

/-- R152, R245: CALL pushes PC + 2 and jumps; with SP = 16 it is a StackOverflow (payload D3, log 12). -/
def Obligations.CallPushesOrOverflows : Prop :=
  ∀ (s : State) (nnn : Addr),
    (∀ h : s.sp.val < 16, ∃ t, exec (.call nnn) s = .next t ∧
      t.stack[s.sp.val] = s.pc + 2 ∧ (∀ k : Fin 16, k.val ≠ s.sp.val → t.stack[k] = s.stack[k]) ∧
      t.sp.val = s.sp.val + 1 ∧ t.pc = BitVec.ofNat 16 nnn.toNat ∧ sameBut [.stack, .sp, .pc] s t) ∧
    (s.sp.val = 16 → exec (.call nnn) s = .fault (.stackOverflow s.pc (encode (.call nnn))))

/-- R153, R246: RET pops the most recent return address into PC and leaves the slot as it is (R25; D26, log 19); with SP = 0
it is a StackUnderflow (payload D3, log 12). -/
def Obligations.ReturnPopsOrUnderflows : Prop :=
  ∀ s : State,
    (∀ k : Fin 16, s.sp.val = k.val + 1 → ∃ t, exec .ret s = .next t ∧
      t.pc = s.stack[k] ∧ t.sp.val = k.val ∧ sameBut [.sp, .pc] s t) ∧
    (s.sp.val = 0 → exec .ret s = .fault (.stackUnderflow s.pc (encode .ret)))

/-- R152, R153: a RET that finds the stack as a CALL left it goes on after the CALL, with SP as before it. -/
def Obligations.ReturnUndoesCall : Prop :=
  ∀ (s t u : State) (nnn : Addr), exec (.call nnn) s = .next t → u.stack = t.stack → u.sp = t.sp →
    ∃ v, exec .ret u = .next v ∧ v.pc = s.pc + 2 ∧ v.sp = s.sp

/-! ## Memory and the index register -/

/-- R200: LD I, nnn (the word's pattern is D14's, log 6). -/
def Obligations.SetIndexWritesI : Prop :=
  ∀ (s : State) (nnn : Addr),
    encode (.ldI nnn) = 0xA#4 ++ nnn ∧
    ∃ t, exec (.ldI nnn) s = .next t ∧ t.i.toNat = nnn.toNat ∧ t.pc = s.pc + 2 ∧ sameBut [.i, .pc] s t

/-- R201: ADD I, Vx: I keeps 16 bits of the sum, and VF is 1 exactly when the sum exceeds 0xFFF (the 0 case and the wrap are
D6, log 10; with x = F the value added is the old VF, D4, log 8). -/
def Obligations.AddIndexFlagsRange : Prop :=
  ∀ (s : State) (x : RegName),
    ∃ t, exec (.addI x) s = .next t ∧ t.i.toNat = (s.indexBase + (s.readV x).toNat) % 65536 ∧
      (∀ r, t.readV r = if r = 0xF#4 then (if 0xFFF < s.indexBase + (s.readV x).toNat then 1 else 0) else s.readV r) ∧
      t.pc = s.pc + 2 ∧ sameBut [.v, .i, .pc] s t

/-- R202: LD F, Vx: the address of the glyph of the low nibble, memory not read (the word's pattern is D14's,
log 6). -/
def Obligations.GlyphAddressOfLowNibble : Prop :=
  ∀ (s : State) (x : RegName),
    encode (.ldF x) = 0xF#4 ++ (x ++ 0x29#8) ∧
    ∃ t, exec (.ldF x) s = .next t ∧ t.i.toNat = 5 * ((s.readV x).toNat % 16) ∧ t.pc = s.pc + 2 ∧ sameBut [.i, .pc] s t

/-- R203: LD B, Vx stores the three decimal digits at I, I + 1, I + 2 and no other byte. -/
def Obligations.BcdStoresThreeDigits : Prop :=
  ∀ (s : State) (x : RegName), s.indexBase + 2 ≤ 4095 →
    ∃ t, exec (.ldB x) s = .next t ∧
      ((t.readMem s.indexBase).toNat * 100 + (t.readMem (s.indexBase + 1)).toNat * 10 +
        (t.readMem (s.indexBase + 2)).toNat = (s.readV x).toNat) ∧
      (t.readMem (s.indexBase + 1)).toNat ≤ 9 ∧ (t.readMem (s.indexBase + 2)).toNat ≤ 9 ∧
      (∀ a, (a < s.indexBase ∨ s.indexBase + 2 < a) → t.readMem a = s.readMem a) ∧
      t.pc = s.pc + 2 ∧ sameBut [.mem, .pc] s t

/-- R204: LD [I], Vx stores V0 to Vx from I upward, no other byte, and leaves I past them. -/
def Obligations.RegisterDumpStoresBlock : Prop :=
  ∀ (s : State) (x : RegName), s.indexBase + x.toNat ≤ 4095 →
    ∃ t, exec (.ldMemVx x) s = .next t ∧
      (∀ r : RegName, r.toNat ≤ x.toNat → t.readMem (s.indexBase + r.toNat) = s.readV r) ∧
      (∀ a, (a < s.indexBase ∨ s.indexBase + x.toNat < a) → t.readMem a = s.readMem a) ∧
      t.i.toNat = s.indexBase + x.toNat + 1 ∧ t.pc = s.pc + 2 ∧ sameBut [.mem, .i, .pc] s t

/-- R205: LD Vx, [I] loads V0 to Vx from I upward, no other register, and leaves I past them. -/
def Obligations.RegisterLoadReadsBlock : Prop :=
  ∀ (s : State) (x : RegName), s.indexBase + x.toNat ≤ 4095 →
    ∃ t, exec (.ldVxMem x) s = .next t ∧
      (∀ r : RegName, t.readV r = if r.toNat ≤ x.toNat then s.readMem (s.indexBase + r.toNat) else s.readV r) ∧
      t.i.toNat = s.indexBase + x.toNat + 1 ∧ t.pc = s.pc + 2 ∧ sameBut [.v, .i, .pc] s t

/-- R203, R204, R205, R243: with a byte of the block above 4095 the three instructions fault with the lowest such address
(D22, D27, log 14). -/
def Obligations.BlockAbove4095Faults : Prop :=
  ∀ (s : State) (x : RegName),
    (4095 < s.indexBase + 2 →
      exec (.ldB x) s = .fault (.memoryFault (max s.indexBase 4096) s.pc (some (encode (.ldB x))))) ∧
    (4095 < s.indexBase + x.toNat →
      exec (.ldMemVx x) s = .fault (.memoryFault (max s.indexBase 4096) s.pc (some (encode (.ldMemVx x)))) ∧
      exec (.ldVxMem x) s = .fault (.memoryFault (max s.indexBase 4096) s.pc (some (encode (.ldVxMem x)))))

/-- R205 as 90_conflicts.md C9 reads the round trip: a load from the dumped block, with I set back, restores V0 to Vx and
leaves I where the dump left it. -/
def Obligations.ReloadRestoresDump : Prop :=
  ∀ (s t u : State) (x : RegName), exec (.ldMemVx x) s = .next t → u.mem = t.mem → u.i = s.i →
    ∃ v, exec (.ldVxMem x) u = .next v ∧ (∀ r : RegName, r.toNat ≤ x.toNat → v.readV r = s.readV r) ∧ v.i = t.i

/-! ## Timers, random, keys -/

/-- R220, R221, R222: LD Vx, DT; LD DT, Vx; LD ST, Vx (the words' patterns are D14's, log 6). -/
def Obligations.TimerTransfers : Prop :=
  ∀ (s : State) (x : RegName),
    (encode (.ldVxDt x) = 0xF#4 ++ (x ++ 0x07#8) ∧ writesOnly (.ldVxDt x) s x s.dt) ∧
    (encode (.ldDtVx x) = 0xF#4 ++ (x ++ 0x15#8) ∧
      ∃ t, exec (.ldDtVx x) s = .next t ∧ t.dt = s.readV x ∧ t.pc = s.pc + 2 ∧ sameBut [.dt, .pc] s t) ∧
    (encode (.ldStVx x) = 0xF#4 ++ (x ++ 0x18#8) ∧
      ∃ t, exec (.ldStVx x) s = .next t ∧ t.st = s.readV x ∧ t.pc = s.pc + 2 ∧ sameBut [.st, .pc] s t)

/-- R223: RND writes some byte ANDed with kk, so the bits outside the mask are 0. The byte is the free value at the count
(D25, log 1): nothing is known of it. -/
def Obligations.RandomByteUnderMask : Prop :=
  ∀ (s : State) (x : RegName) (kk : Byte),
    ∃ t, exec (.rnd x kk) s = .next t ∧
      (∀ r, t.readV r = if r = x then Config.rnd s.rndCount &&& kk else s.readV r) ∧
      (∀ k, kk.getLsbD k = false → (t.readV x).getLsbD k = false) ∧
      t.pc = s.pc + 2 ∧ t.rndCount = s.rndCount + 1 ∧ sameBut [.v, .pc, .rnd] s t

/-- R230: LD Vx, K changes nothing while no key is pressed, and otherwise stores the least pressed index; the keys are not
changed. That the blocked wait is a next state of `exec`, equal to the state before it, is the model's reading (log 5). -/
def Obligations.KeyWaitStoresLowestKey : Prop :=
  ∀ (s : State) (x : RegName),
    ((∀ k, s.readKey k = false) → exec (.ldVxK x) s = .next s) ∧
    (∀ k : Nibble, s.readKey k = true → (∀ j : Nibble, j.toNat < k.toNat → s.readKey j = false) →
      writesOnly (.ldVxK x) s x (k.setWidth 8))

/-- R125, R231: a step reports AwaitingKeyInput exactly when it fetched LD Vx, K and no key is pressed; it then changes only
REDRAW; ticks leave the wait as it is; and once a key is pressed the next step completes with it (log 5). -/
def Obligations.AwaitingKeyInputExactly : Prop :=
  ∀ s : State,
    ((hostStep s).2 = .awaitingKeyInput ↔ (∃ x, fetchInstr s = .ok (.ldVxK x)) ∧ ∀ k, s.readKey k = false) ∧
    (∀ x, fetchInstr s = .ok (.ldVxK x) → (∀ k, s.readKey k = false) →
      (hostStep s).1 = { s with redraw := false } ∧
      (hostStep (advanceTimers s)).2 = .awaitingKeyInput ∧
      ∀ k, (hostStep (setKeyPressed k s)).2 = .running ∧
        (hostStep (setKeyPressed k s)).1.readV x = k.setWidth 8 ∧
        (hostStep (setKeyPressed k s)).1.pc = s.pc + 2)

/-! ## Display -/

/-- R140: CLS clears every cell, sets REDRAW and writes nothing else but PC (the word's pattern is D14's, log 6;
cells as log 24 holds them). -/
def Obligations.ClearZeroesEveryCell : Prop :=
  encode .cls = 0x00E0#16 ∧
  ∀ s : State, ∃ t, exec .cls s = .next t ∧ (∀ c, c < 2048 → fbCell t.fb c = false) ∧ t.redraw = true ∧
    t.pc = s.pc + 2 ∧ sameBut [.fb, .redraw, .pc] s t

/-- R141: DRW, with its rows in memory and its covered cells in the framebuffer, flips the covered cells and no other, and
VF says whether one of them was set (column Vx, row Vy, bit 7 first D8; VF 0 D7; spill D9; n = 0 D10: log 11; with x = F or
y = F the coordinate is the old VF, D4, log 8; cells as log 24 holds them). -/
def Obligations.DrawFlipsCoveredCells : Prop :=
  ∀ (s : State) (x y : RegName) (n : Nibble), (n.toNat = 0 ∨ s.indexBase + n.toNat ≤ 4096) →
    (∀ c, covered s x y n c → c ≤ 2047) →
    ∃ t, exec (.drw x y n) s = .next t ∧
      (∀ c, c ≤ 2047 → (covered s x y n c → fbCell t.fb c = !fbCell s.fb c) ∧
        (¬ covered s x y n c → fbCell t.fb c = fbCell s.fb c)) ∧
      ((∃ c, covered s x y n c ∧ fbCell s.fb c = true) → t.readV 0xF#4 = 1) ∧
      ((¬ ∃ c, covered s x y n c ∧ fbCell s.fb c = true) → t.readV 0xF#4 = 0) ∧
      (∀ r, r ≠ 0xF#4 → t.readV r = s.readV r) ∧
      t.redraw = true ∧ t.pc = s.pc + 2 ∧ sameBut [.v, .fb, .redraw, .pc] s t

/-- R141, R243, R244, R249: DRW faults on its rows first, with the lowest bad address, and else on the first covered cell
above 2047 in row-then-bit order (D9, D11, D22, log 11, log 12, log 14). -/
def Obligations.DrawFaultsInOrder : Prop :=
  ∀ (s : State) (x y : RegName) (n : Nibble),
    (0 < n.toNat → 4096 < s.indexBase + n.toNat →
      exec (.drw x y n) s = .fault (.memoryFault (max s.indexBase 4096) s.pc (some (encode (.drw x y n))))) ∧
    (s.indexBase + n.toNat ≤ 4096 → ∀ r b : Nat, r < n.toNat → b < 8 →
      (s.readMem (s.indexBase + r)).getLsbD (7 - b) = true →
      2047 < ((s.readV y).toNat + r) * 64 + ((s.readV x).toNat + b) →
      (∀ r' b' : Nat, b' < 8 → (r' < r ∨ r' = r ∧ b' < b) → (s.readMem (s.indexBase + r')).getLsbD (7 - b') = true →
        ((s.readV y).toNat + r') * 64 + ((s.readV x).toNat + b') ≤ 2047) →
      exec (.drw x y n) s =
        .fault (.framebufferFault (((s.readV y).toNat + r) * 64 + ((s.readV x).toNat + b)) s.pc (encode (.drw x y n))))

/-- R142: the cells of one sprite are pairwise distinct, none exceeds 17478, and a draw of n rows stays in the framebuffer
whatever its bytes exactly when its last cell does (the spec's inference from R141's formula). -/
def Obligations.SpriteCellsGeometry : Prop :=
  (∀ (rows : List Byte) (cx cy : Nat), (spriteCells rows cx cy).Nodup ∧
    (rows.length ≤ 15 → cx ≤ 255 → cy ≤ 255 → ∀ c ∈ spriteCells rows cx cy, c ≤ 17478)) ∧
  (∀ n cx cy : Nat, 1 ≤ n →
    ((∀ rows : List Byte, rows.length = n → ∀ c ∈ spriteCells rows cx cy, c ≤ 2047) ↔ (cy + n - 1) * 64 + cx + 7 ≤ 2047))

/-- R143: the same sprite bytes drawn again at the same coordinates restore the framebuffer, and the second VF is 1 exactly
when the first draw covered a cell that was clear (90_conflicts.md C4; the spec's inference from R141, D4, D8, D9: log 8,
log 11). With x or y = F the first draw overwrites a coordinate, so "the same coordinates" is a condition on the state of the
second draw; with neither, the state the first draw leaves meets it. -/
def Obligations.DrawTwiceRestores : Prop :=
  ∀ (s t : State) (x y : RegName) (n : Nibble), exec (.drw x y n) s = .next t →
    (∀ u : State, u.fb = t.fb → u.mem = s.mem → u.i = s.i → u.readV x = s.readV x → u.readV y = s.readV y →
      ∃ v, exec (.drw x y n) u = .next v ∧ v.fb = s.fb ∧
        (v.readV 0xF#4 = 1 ↔ ∃ c, covered s x y n c ∧ fbCell s.fb c = false)) ∧
    (x ≠ 0xF#4 → y ≠ 0xF#4 → ∃ v, exec (.drw x y n) t = .next v ∧ v.fb = s.fb ∧
      (v.readV 0xF#4 = 1 ↔ ∃ c, covered s x y n c ∧ fbCell s.fb c = false))

/-! ## Invariants and isolation -/

/-- The invariant of reachable states (canonical memory, log 22; PC at most 0x10FE, R24; held return addresses in 2 to 4096,
R153) is kept by every step that answers a next state, from every state that has it. -/
def Obligations.StepKeepsInvariant : Prop :=
  ∀ s t : State, Inv s → step s = .next t → Inv t

/-- The reset state (R33; log 3, log 22) has the invariant. -/
def Obligations.ResetHasInvariant : Prop := Inv State.reset

/-- R262: every transaction, and so every host schedule, keeps the invariant, faulting steps and oversize loads among them
(load at any time is D18, log 17). -/
def Obligations.SchedulesKeepInvariant : Prop :=
  ∀ (ts : List Transaction) (s : State), Inv s → Inv (runSchedule ts s).1

/-- R26: no instruction reads ST: with another value in it a step does the same, but for ST. -/
def Obligations.SoundTimerIsNotRead : Prop :=
  ∀ (s : State) (b : Byte),
    (∀ t, step s = .next t → ∃ c, step { s with st := b } = .next { t with st := c }) ∧
    (∀ f, step s = .fault f → step { s with st := b } = .fault f)

/-- R25: a popped slot "is not observable by any instruction": two states that differ only in slots at SP and above step
alike and again differ only in such slots (D26, log 19). -/
def Obligations.StaleSlotsAreNotRead : Prop :=
  ∀ (s : State) (slots : Vector Word 16), (∀ k : Fin 16, k.val < s.sp.val → slots[k] = s.stack[k]) →
    (∀ f, step s = .fault f → step { s with stack := slots } = .fault f) ∧
    (∀ t, step s = .next t → ∃ slots' : Vector Word 16,
      step { s with stack := slots } = .next { t with stack := slots' } ∧
      ∀ k : Fin 16, k.val < t.sp.val → slots'[k] = t.stack[k])

/-- R63, R69: a word stored at PC, high byte first, is the word the next fetch reads (R69 is the spec's inference). -/
def Obligations.StoredWordIsFetched : Prop :=
  ∀ (s : State) (w : Word), s.pc.toNat ≤ 4094 →
    fetchWord (s.setMem (Memory.writeBytes s.mem s.pc.toNat [highByte w, lowByte w])) = .ok w

/-- Two memories in the canonical form that read alike at every address are the same data (the model's form, log 22). -/
def Obligations.CanonicalMemoryIsUnique : Prop :=
  ∀ m m' : List Host.Cell, Memory.wf m → Memory.wf m' → (∀ a, Memory.read m a = Memory.read m' a) → m = m'

/-! ## Host transactions -/

/-- R71, R282, R248: load copies an image of at most 3584 bytes to 0x200 upward and writes nothing else; a longer one is
refused with its length and changes no state (D18, log 17). -/
def Obligations.LoadCopiesImage : Prop :=
  ∀ (s : State) (bytes : List Byte),
    (bytes.length ≤ 3584 → ∃ t, load bytes s = .next t ∧
      (∀ (k : Nat) (h : k < bytes.length), t.readMem (0x200 + k) = bytes[k]) ∧
      (∀ a, (a < 0x200 ∨ 0x200 + bytes.length ≤ a) → t.readMem a = s.readMem a) ∧ sameBut [.mem] s t) ∧
    (3584 < bytes.length → load bytes s = .fault (.loadOverflow bytes.length) ∧ (transact (.load bytes) s).1 = s)

/-- R254: a tick counts both timers down by one, floored at 0, and changes nothing else; any number of ticks never goes
below 0. -/
def Obligations.TickCountsDown : Prop :=
  ∀ s : State,
    ((advanceTimers s).dt.toNat = s.dt.toNat - 1 ∧ (advanceTimers s).st.toNat = s.st.toNat - 1 ∧
      sameBut [.dt, .st] s (advanceTimers s)) ∧
    ∀ n : Nat, (advanceTimers^[n] s).dt.toNat = s.dt.toNat - n ∧ (advanceTimers^[n] s).st.toNat = s.st.toNat - n

/-- R256, R257, R258, R255: the key ports set one flag, the framebuffer view is the 2048 cells by rows and columns, the
redraw flag is returned and cleared (D17, log 17), ST is shown (D20). How a row holds its cells is the model's choice (log 24). -/
def Obligations.HostPortsReadAndWrite : Prop :=
  ∀ s : State,
    (∀ k q : Nibble, (setKeyPressed k s).readKey q = (if q = k then true else s.readKey q)) ∧
    (∀ k q : Nibble, (setKeyReleased k s).readKey q = (if q = k then false else s.readKey q)) ∧
    ((consumeRedrawFlag s).2 = s.redraw ∧ (consumeRedrawFlag s).1.redraw = false) ∧
    (s.cells.length = 2048 ∧ ∀ (r : Fin 32) (c : Fin 64), s.cells[r.val * 64 + c.val]? = some (s.fb[r].getLsbD c.val)) ∧
    (transact .soundTimer s).2 = .sound s.st

/-- R263: what each transaction may change, a step only REDRAW and what the instruction it fetches may write, and REDRAW alone
when it fetches none; construct gives the reset state, with the model's count of
random bytes kept (log 1), and load writes nothing below 0x200. -/
def Obligations.TransactionsKeepTheirFrame : Prop :=
  ∀ (t : Transaction) (s : State),
    sameBut (hostMayWrite t s) s (transact t s).1 ∧ (transact .construct s).1 = { State.reset with rndCount := s.rndCount } ∧
    ∀ (bytes : List Byte) (a : Nat), a < 0x200 → (transact (.load bytes) s).1.readMem a = s.readMem a
end

