-- ==== Sys2Proof/Laws/Decode.lean ====
section
/-! SUPPORT. What the decoder's parts do: the fields of a word of each format, the bytes of a word, and what `decode` can
answer. -/

namespace Sys2Proof

/-! ## Words and bytes -/

@[simp] theorem highByte_wordOfBytes (hi lo : Byte) : highByte (wordOfBytes hi lo) = hi := by
  ext k hk
  simp only [highByte, wordOfBytes]
  grind

@[simp] theorem lowByte_wordOfBytes (hi lo : Byte) : lowByte (wordOfBytes hi lo) = lo := by
  ext k hk
  simp only [lowByte, wordOfBytes]
  grind

@[simp] theorem wordOfBytes_bytes (w : Word) : wordOfBytes (highByte w) (lowByte w) = w := by
  ext k hk
  simp only [highByte, lowByte, wordOfBytes]
  grind

/-! ## The fields of each format (R91, R92) -/

/-- The fields of four nibbles joined. -/
theorem fieldsOf_formatXYN (op : Nibble) (x y : RegName) (n : Nibble) :
    fieldsOf (formatXYN op x y n) = ⟨op, x, y, n, y ++ n, x ++ (y ++ n)⟩ := by
  simp only [fieldsOf, formatXYN, Fields.mk.injEq]
  refine ⟨?_, ?_, ?_, ?_, ?_, ?_⟩ <;> ext k hk <;>
    simp <;> grind

theorem fieldsOf_formatXI (op : Nibble) (x : RegName) (kk : Byte) :
    fieldsOf (formatXI op x kk) = ⟨op, x, kk.extractLsb' 4 4, kk.extractLsb' 0 4, kk, x ++ kk⟩ := by
  simp only [fieldsOf, formatXI, Fields.mk.injEq]
  refine ⟨?_, ?_, ?_, ?_, ?_, ?_⟩ <;> ext k hk <;>
    simp <;> grind

theorem fieldsOf_formatA (op : Nibble) (nnn : Addr) :
    fieldsOf (formatA op nnn) =
      ⟨op, nnn.extractLsb' 8 4, nnn.extractLsb' 4 4, nnn.extractLsb' 0 4, nnn.extractLsb' 0 8, nnn⟩ := by
  simp only [fieldsOf, formatA, Fields.mk.injEq]
  refine ⟨?_, ?_, ?_, ?_, ?_, ?_⟩ <;> ext k hk <;>
    simp <;> grind

/-- The extracted fields of any word are well formed (R91). -/
theorem fieldsOf_wf (w : Word) : (fieldsOf w).wf = true := by
  simp only [Fields.wf, Fields.lowByteAgrees, Fields.addressAgrees, Bool.and_eq_true, beq_iff_eq]
  refine ⟨?_, ?_⟩ <;> ext k hk <;> simp [fieldsOf] <;> grind

/-- A word is its fields joined by format XYN. -/
theorem formatXYN_fieldsOf (w : Word) :
    formatXYN (fieldsOf w).op (fieldsOf w).x (fieldsOf w).y (fieldsOf w).n = w := by
  ext k hk
  simp [formatXYN, fieldsOf]
  grind

/-- A word is its fields joined by format XI. -/
theorem formatXI_fieldsOf (w : Word) : formatXI (fieldsOf w).op (fieldsOf w).x (fieldsOf w).kk = w := by
  ext k hk
  simp [formatXI, fieldsOf]
  grind

/-- A word is its fields joined by format A. -/
theorem formatA_fieldsOf (w : Word) : formatA (fieldsOf w).op (fieldsOf w).nnn = w := by
  ext k hk
  simp [formatA, fieldsOf]
  grind

/-! ## What decode answers -/

/-- A word decodes to the instruction its fields select. -/
theorem decode_eq_ok {w : Word} {i : Instr} : decode w = .ok i ↔ select (fieldsOf w) = some i := by
  unfold decode
  cases select (fieldsOf w) <;> simp

/-- A rejected word is rejected by its own name (R96). -/
theorem decode_eq_error {w : Word} {e : DecodeError} :
    decode w = .error e ↔ select (fieldsOf w) = none ∧ e = .invalidWord w := by
  unfold decode
  cases select (fieldsOf w) <;> simp [eq_comm]

end Sys2Proof
end

