-- ==== Sys2Proof/Laws/State.lean ====
section
/-! SUPPORT. What each update of the state does to each field and each view of the state: one lemma per field per update, so
that no proof unfolds a record update. -/

namespace Sys2Proof.Machine

/-! ## Derived updates are plain ones -/

@[simp] theorem State.advance_eq (s : State) : s.advance = s.setPc (s.pc + 2) := rfl
@[simp] theorem State.skipIf_eq (s : State) (c : Bool) : s.skipIf c = s.setPc (if c then s.pc + 4 else s.pc + 2) := rfl
@[simp] theorem State.beginStep_eq (s : State) : s.beginStep = s.setRedraw false := rfl
@[simp] theorem State.afterFault_eq (s : State) : s.afterFault = s.setRedraw false := rfl

/-! ## setV -/

@[simp] theorem State.setV_mem (s : State) (r : RegName) (b : Byte) : (s.setV r b).mem = s.mem := rfl
@[simp] theorem State.setV_v (s : State) (r : RegName) (b : Byte) : (s.setV r b).v = s.v.set r.toNat b := rfl
@[simp] theorem State.setV_i (s : State) (r : RegName) (b : Byte) : (s.setV r b).i = s.i := rfl
@[simp] theorem State.setV_pc (s : State) (r : RegName) (b : Byte) : (s.setV r b).pc = s.pc := rfl
@[simp] theorem State.setV_stack (s : State) (r : RegName) (b : Byte) : (s.setV r b).stack = s.stack := rfl
@[simp] theorem State.setV_sp (s : State) (r : RegName) (b : Byte) : (s.setV r b).sp = s.sp := rfl
@[simp] theorem State.setV_dt (s : State) (r : RegName) (b : Byte) : (s.setV r b).dt = s.dt := rfl
@[simp] theorem State.setV_st (s : State) (r : RegName) (b : Byte) : (s.setV r b).st = s.st := rfl
@[simp] theorem State.setV_fb (s : State) (r : RegName) (b : Byte) : (s.setV r b).fb = s.fb := rfl
@[simp] theorem State.setV_key (s : State) (r : RegName) (b : Byte) : (s.setV r b).key = s.key := rfl
@[simp] theorem State.setV_redraw (s : State) (r : RegName) (b : Byte) : (s.setV r b).redraw = s.redraw := rfl
@[simp] theorem State.setV_rndCount (s : State) (r : RegName) (b : Byte) : (s.setV r b).rndCount = s.rndCount := rfl
@[simp] theorem State.setV_readMem (s : State) (r : RegName) (b : Byte) (a : Nat) : (s.setV r b).readMem a = s.readMem a := rfl
@[simp] theorem State.setV_readKey (s : State) (r : RegName) (b : Byte) (q : Nibble) : (s.setV r b).readKey q = s.readKey q := rfl
@[simp] theorem State.setV_firstKey (s : State) (r : RegName) (b : Byte) : (s.setV r b).firstKey = s.firstKey := rfl
@[simp] theorem State.setV_indexBase (s : State) (r : RegName) (b : Byte) : (s.setV r b).indexBase = s.indexBase := rfl

/-! ## setI -/

@[simp] theorem State.setI_mem (s : State) (w : Word) : (s.setI w).mem = s.mem := rfl
@[simp] theorem State.setI_v (s : State) (w : Word) : (s.setI w).v = s.v := rfl
@[simp] theorem State.setI_i (s : State) (w : Word) : (s.setI w).i = w := rfl
@[simp] theorem State.setI_pc (s : State) (w : Word) : (s.setI w).pc = s.pc := rfl
@[simp] theorem State.setI_stack (s : State) (w : Word) : (s.setI w).stack = s.stack := rfl
@[simp] theorem State.setI_sp (s : State) (w : Word) : (s.setI w).sp = s.sp := rfl
@[simp] theorem State.setI_dt (s : State) (w : Word) : (s.setI w).dt = s.dt := rfl
@[simp] theorem State.setI_st (s : State) (w : Word) : (s.setI w).st = s.st := rfl
@[simp] theorem State.setI_fb (s : State) (w : Word) : (s.setI w).fb = s.fb := rfl
@[simp] theorem State.setI_key (s : State) (w : Word) : (s.setI w).key = s.key := rfl
@[simp] theorem State.setI_redraw (s : State) (w : Word) : (s.setI w).redraw = s.redraw := rfl
@[simp] theorem State.setI_rndCount (s : State) (w : Word) : (s.setI w).rndCount = s.rndCount := rfl
@[simp] theorem State.setI_readV (s : State) (w : Word) (q : RegName) : (s.setI w).readV q = s.readV q := rfl
@[simp] theorem State.setI_readMem (s : State) (w : Word) (a : Nat) : (s.setI w).readMem a = s.readMem a := rfl
@[simp] theorem State.setI_readKey (s : State) (w : Word) (q : Nibble) : (s.setI w).readKey q = s.readKey q := rfl
@[simp] theorem State.setI_firstKey (s : State) (w : Word) : (s.setI w).firstKey = s.firstKey := rfl

/-! ## setPc -/

@[simp] theorem State.setPc_mem (s : State) (w : Word) : (s.setPc w).mem = s.mem := rfl
@[simp] theorem State.setPc_v (s : State) (w : Word) : (s.setPc w).v = s.v := rfl
@[simp] theorem State.setPc_i (s : State) (w : Word) : (s.setPc w).i = s.i := rfl
@[simp] theorem State.setPc_pc (s : State) (w : Word) : (s.setPc w).pc = w := rfl
@[simp] theorem State.setPc_stack (s : State) (w : Word) : (s.setPc w).stack = s.stack := rfl
@[simp] theorem State.setPc_sp (s : State) (w : Word) : (s.setPc w).sp = s.sp := rfl
@[simp] theorem State.setPc_dt (s : State) (w : Word) : (s.setPc w).dt = s.dt := rfl
@[simp] theorem State.setPc_st (s : State) (w : Word) : (s.setPc w).st = s.st := rfl
@[simp] theorem State.setPc_fb (s : State) (w : Word) : (s.setPc w).fb = s.fb := rfl
@[simp] theorem State.setPc_key (s : State) (w : Word) : (s.setPc w).key = s.key := rfl
@[simp] theorem State.setPc_redraw (s : State) (w : Word) : (s.setPc w).redraw = s.redraw := rfl
@[simp] theorem State.setPc_rndCount (s : State) (w : Word) : (s.setPc w).rndCount = s.rndCount := rfl
@[simp] theorem State.setPc_readV (s : State) (w : Word) (q : RegName) : (s.setPc w).readV q = s.readV q := rfl
@[simp] theorem State.setPc_readMem (s : State) (w : Word) (a : Nat) : (s.setPc w).readMem a = s.readMem a := rfl
@[simp] theorem State.setPc_readKey (s : State) (w : Word) (q : Nibble) : (s.setPc w).readKey q = s.readKey q := rfl
@[simp] theorem State.setPc_firstKey (s : State) (w : Word) : (s.setPc w).firstKey = s.firstKey := rfl
@[simp] theorem State.setPc_indexBase (s : State) (w : Word) : (s.setPc w).indexBase = s.indexBase := rfl

/-! ## setMem -/

@[simp] theorem State.setMem_mem (s : State) (m : List Host.Cell) : (s.setMem m).mem = m := rfl
@[simp] theorem State.setMem_v (s : State) (m : List Host.Cell) : (s.setMem m).v = s.v := rfl
@[simp] theorem State.setMem_i (s : State) (m : List Host.Cell) : (s.setMem m).i = s.i := rfl
@[simp] theorem State.setMem_pc (s : State) (m : List Host.Cell) : (s.setMem m).pc = s.pc := rfl
@[simp] theorem State.setMem_stack (s : State) (m : List Host.Cell) : (s.setMem m).stack = s.stack := rfl
@[simp] theorem State.setMem_sp (s : State) (m : List Host.Cell) : (s.setMem m).sp = s.sp := rfl
@[simp] theorem State.setMem_dt (s : State) (m : List Host.Cell) : (s.setMem m).dt = s.dt := rfl
@[simp] theorem State.setMem_st (s : State) (m : List Host.Cell) : (s.setMem m).st = s.st := rfl
@[simp] theorem State.setMem_fb (s : State) (m : List Host.Cell) : (s.setMem m).fb = s.fb := rfl
@[simp] theorem State.setMem_key (s : State) (m : List Host.Cell) : (s.setMem m).key = s.key := rfl
@[simp] theorem State.setMem_redraw (s : State) (m : List Host.Cell) : (s.setMem m).redraw = s.redraw := rfl
@[simp] theorem State.setMem_rndCount (s : State) (m : List Host.Cell) : (s.setMem m).rndCount = s.rndCount := rfl
@[simp] theorem State.setMem_readV (s : State) (m : List Host.Cell) (q : RegName) : (s.setMem m).readV q = s.readV q := rfl
@[simp] theorem State.setMem_readKey (s : State) (m : List Host.Cell) (q : Nibble) : (s.setMem m).readKey q = s.readKey q := rfl
@[simp] theorem State.setMem_firstKey (s : State) (m : List Host.Cell) : (s.setMem m).firstKey = s.firstKey := rfl
@[simp] theorem State.setMem_indexBase (s : State) (m : List Host.Cell) : (s.setMem m).indexBase = s.indexBase := rfl

/-! ## setDt -/

@[simp] theorem State.setDt_mem (s : State) (b : Byte) : (s.setDt b).mem = s.mem := rfl
@[simp] theorem State.setDt_v (s : State) (b : Byte) : (s.setDt b).v = s.v := rfl
@[simp] theorem State.setDt_i (s : State) (b : Byte) : (s.setDt b).i = s.i := rfl
@[simp] theorem State.setDt_pc (s : State) (b : Byte) : (s.setDt b).pc = s.pc := rfl
@[simp] theorem State.setDt_stack (s : State) (b : Byte) : (s.setDt b).stack = s.stack := rfl
@[simp] theorem State.setDt_sp (s : State) (b : Byte) : (s.setDt b).sp = s.sp := rfl
@[simp] theorem State.setDt_dt (s : State) (b : Byte) : (s.setDt b).dt = b := rfl
@[simp] theorem State.setDt_st (s : State) (b : Byte) : (s.setDt b).st = s.st := rfl
@[simp] theorem State.setDt_fb (s : State) (b : Byte) : (s.setDt b).fb = s.fb := rfl
@[simp] theorem State.setDt_key (s : State) (b : Byte) : (s.setDt b).key = s.key := rfl
@[simp] theorem State.setDt_redraw (s : State) (b : Byte) : (s.setDt b).redraw = s.redraw := rfl
@[simp] theorem State.setDt_rndCount (s : State) (b : Byte) : (s.setDt b).rndCount = s.rndCount := rfl
@[simp] theorem State.setDt_readV (s : State) (b : Byte) (q : RegName) : (s.setDt b).readV q = s.readV q := rfl
@[simp] theorem State.setDt_readMem (s : State) (b : Byte) (a : Nat) : (s.setDt b).readMem a = s.readMem a := rfl
@[simp] theorem State.setDt_readKey (s : State) (b : Byte) (q : Nibble) : (s.setDt b).readKey q = s.readKey q := rfl
@[simp] theorem State.setDt_firstKey (s : State) (b : Byte) : (s.setDt b).firstKey = s.firstKey := rfl
@[simp] theorem State.setDt_indexBase (s : State) (b : Byte) : (s.setDt b).indexBase = s.indexBase := rfl

/-! ## setSt -/

@[simp] theorem State.setSt_mem (s : State) (b : Byte) : (s.setSt b).mem = s.mem := rfl
@[simp] theorem State.setSt_v (s : State) (b : Byte) : (s.setSt b).v = s.v := rfl
@[simp] theorem State.setSt_i (s : State) (b : Byte) : (s.setSt b).i = s.i := rfl
@[simp] theorem State.setSt_pc (s : State) (b : Byte) : (s.setSt b).pc = s.pc := rfl
@[simp] theorem State.setSt_stack (s : State) (b : Byte) : (s.setSt b).stack = s.stack := rfl
@[simp] theorem State.setSt_sp (s : State) (b : Byte) : (s.setSt b).sp = s.sp := rfl
@[simp] theorem State.setSt_dt (s : State) (b : Byte) : (s.setSt b).dt = s.dt := rfl
@[simp] theorem State.setSt_st (s : State) (b : Byte) : (s.setSt b).st = b := rfl
@[simp] theorem State.setSt_fb (s : State) (b : Byte) : (s.setSt b).fb = s.fb := rfl
@[simp] theorem State.setSt_key (s : State) (b : Byte) : (s.setSt b).key = s.key := rfl
@[simp] theorem State.setSt_redraw (s : State) (b : Byte) : (s.setSt b).redraw = s.redraw := rfl
@[simp] theorem State.setSt_rndCount (s : State) (b : Byte) : (s.setSt b).rndCount = s.rndCount := rfl
@[simp] theorem State.setSt_readV (s : State) (b : Byte) (q : RegName) : (s.setSt b).readV q = s.readV q := rfl
@[simp] theorem State.setSt_readMem (s : State) (b : Byte) (a : Nat) : (s.setSt b).readMem a = s.readMem a := rfl
@[simp] theorem State.setSt_readKey (s : State) (b : Byte) (q : Nibble) : (s.setSt b).readKey q = s.readKey q := rfl
@[simp] theorem State.setSt_firstKey (s : State) (b : Byte) : (s.setSt b).firstKey = s.firstKey := rfl
@[simp] theorem State.setSt_indexBase (s : State) (b : Byte) : (s.setSt b).indexBase = s.indexBase := rfl

/-! ## setRedraw -/

@[simp] theorem State.setRedraw_mem (s : State) (b : Bool) : (s.setRedraw b).mem = s.mem := rfl
@[simp] theorem State.setRedraw_v (s : State) (b : Bool) : (s.setRedraw b).v = s.v := rfl
@[simp] theorem State.setRedraw_i (s : State) (b : Bool) : (s.setRedraw b).i = s.i := rfl
@[simp] theorem State.setRedraw_pc (s : State) (b : Bool) : (s.setRedraw b).pc = s.pc := rfl
@[simp] theorem State.setRedraw_stack (s : State) (b : Bool) : (s.setRedraw b).stack = s.stack := rfl
@[simp] theorem State.setRedraw_sp (s : State) (b : Bool) : (s.setRedraw b).sp = s.sp := rfl
@[simp] theorem State.setRedraw_dt (s : State) (b : Bool) : (s.setRedraw b).dt = s.dt := rfl
@[simp] theorem State.setRedraw_st (s : State) (b : Bool) : (s.setRedraw b).st = s.st := rfl
@[simp] theorem State.setRedraw_fb (s : State) (b : Bool) : (s.setRedraw b).fb = s.fb := rfl
@[simp] theorem State.setRedraw_key (s : State) (b : Bool) : (s.setRedraw b).key = s.key := rfl
@[simp] theorem State.setRedraw_redraw (s : State) (b : Bool) : (s.setRedraw b).redraw = b := rfl
@[simp] theorem State.setRedraw_rndCount (s : State) (b : Bool) : (s.setRedraw b).rndCount = s.rndCount := rfl
@[simp] theorem State.setRedraw_readV (s : State) (b : Bool) (q : RegName) : (s.setRedraw b).readV q = s.readV q := rfl
@[simp] theorem State.setRedraw_readMem (s : State) (b : Bool) (a : Nat) : (s.setRedraw b).readMem a = s.readMem a := rfl
@[simp] theorem State.setRedraw_readKey (s : State) (b : Bool) (q : Nibble) : (s.setRedraw b).readKey q = s.readKey q := rfl
@[simp] theorem State.setRedraw_firstKey (s : State) (b : Bool) : (s.setRedraw b).firstKey = s.firstKey := rfl
@[simp] theorem State.setRedraw_indexBase (s : State) (b : Bool) : (s.setRedraw b).indexBase = s.indexBase := rfl

/-! ## setFb -/

@[simp] theorem State.setFb_mem (s : State) (g : Vector (BitVec 64) 32) : (s.setFb g).mem = s.mem := rfl
@[simp] theorem State.setFb_v (s : State) (g : Vector (BitVec 64) 32) : (s.setFb g).v = s.v := rfl
@[simp] theorem State.setFb_i (s : State) (g : Vector (BitVec 64) 32) : (s.setFb g).i = s.i := rfl
@[simp] theorem State.setFb_pc (s : State) (g : Vector (BitVec 64) 32) : (s.setFb g).pc = s.pc := rfl
@[simp] theorem State.setFb_stack (s : State) (g : Vector (BitVec 64) 32) : (s.setFb g).stack = s.stack := rfl
@[simp] theorem State.setFb_sp (s : State) (g : Vector (BitVec 64) 32) : (s.setFb g).sp = s.sp := rfl
@[simp] theorem State.setFb_dt (s : State) (g : Vector (BitVec 64) 32) : (s.setFb g).dt = s.dt := rfl
@[simp] theorem State.setFb_st (s : State) (g : Vector (BitVec 64) 32) : (s.setFb g).st = s.st := rfl
@[simp] theorem State.setFb_fb (s : State) (g : Vector (BitVec 64) 32) : (s.setFb g).fb = g := rfl
@[simp] theorem State.setFb_key (s : State) (g : Vector (BitVec 64) 32) : (s.setFb g).key = s.key := rfl
@[simp] theorem State.setFb_redraw (s : State) (g : Vector (BitVec 64) 32) : (s.setFb g).redraw = s.redraw := rfl
@[simp] theorem State.setFb_rndCount (s : State) (g : Vector (BitVec 64) 32) : (s.setFb g).rndCount = s.rndCount := rfl
@[simp] theorem State.setFb_readV (s : State) (g : Vector (BitVec 64) 32) (q : RegName) : (s.setFb g).readV q = s.readV q := rfl
@[simp] theorem State.setFb_readMem (s : State) (g : Vector (BitVec 64) 32) (a : Nat) : (s.setFb g).readMem a = s.readMem a := rfl
@[simp] theorem State.setFb_readKey (s : State) (g : Vector (BitVec 64) 32) (q : Nibble) : (s.setFb g).readKey q = s.readKey q := rfl
@[simp] theorem State.setFb_firstKey (s : State) (g : Vector (BitVec 64) 32) : (s.setFb g).firstKey = s.firstKey := rfl
@[simp] theorem State.setFb_indexBase (s : State) (g : Vector (BitVec 64) 32) : (s.setFb g).indexBase = s.indexBase := rfl

/-! ## setKey -/

@[simp] theorem State.setKey_mem (s : State) (k : Nibble) (b : Bool) : (s.setKey k b).mem = s.mem := rfl
@[simp] theorem State.setKey_v (s : State) (k : Nibble) (b : Bool) : (s.setKey k b).v = s.v := rfl
@[simp] theorem State.setKey_i (s : State) (k : Nibble) (b : Bool) : (s.setKey k b).i = s.i := rfl
@[simp] theorem State.setKey_pc (s : State) (k : Nibble) (b : Bool) : (s.setKey k b).pc = s.pc := rfl
@[simp] theorem State.setKey_stack (s : State) (k : Nibble) (b : Bool) : (s.setKey k b).stack = s.stack := rfl
@[simp] theorem State.setKey_sp (s : State) (k : Nibble) (b : Bool) : (s.setKey k b).sp = s.sp := rfl
@[simp] theorem State.setKey_dt (s : State) (k : Nibble) (b : Bool) : (s.setKey k b).dt = s.dt := rfl
@[simp] theorem State.setKey_st (s : State) (k : Nibble) (b : Bool) : (s.setKey k b).st = s.st := rfl
@[simp] theorem State.setKey_fb (s : State) (k : Nibble) (b : Bool) : (s.setKey k b).fb = s.fb := rfl
@[simp] theorem State.setKey_key (s : State) (k : Nibble) (b : Bool) : (s.setKey k b).key = s.key.set k.toNat b := rfl
@[simp] theorem State.setKey_redraw (s : State) (k : Nibble) (b : Bool) : (s.setKey k b).redraw = s.redraw := rfl
@[simp] theorem State.setKey_rndCount (s : State) (k : Nibble) (b : Bool) : (s.setKey k b).rndCount = s.rndCount := rfl
@[simp] theorem State.setKey_readV (s : State) (k : Nibble) (b : Bool) (q : RegName) : (s.setKey k b).readV q = s.readV q := rfl
@[simp] theorem State.setKey_readMem (s : State) (k : Nibble) (b : Bool) (a : Nat) : (s.setKey k b).readMem a = s.readMem a := rfl
@[simp] theorem State.setKey_indexBase (s : State) (k : Nibble) (b : Bool) : (s.setKey k b).indexBase = s.indexBase := rfl

/-! ## countRnd -/

@[simp] theorem State.countRnd_mem (s : State) : (s.countRnd).mem = s.mem := rfl
@[simp] theorem State.countRnd_v (s : State) : (s.countRnd).v = s.v := rfl
@[simp] theorem State.countRnd_i (s : State) : (s.countRnd).i = s.i := rfl
@[simp] theorem State.countRnd_pc (s : State) : (s.countRnd).pc = s.pc := rfl
@[simp] theorem State.countRnd_stack (s : State) : (s.countRnd).stack = s.stack := rfl
@[simp] theorem State.countRnd_sp (s : State) : (s.countRnd).sp = s.sp := rfl
@[simp] theorem State.countRnd_dt (s : State) : (s.countRnd).dt = s.dt := rfl
@[simp] theorem State.countRnd_st (s : State) : (s.countRnd).st = s.st := rfl
@[simp] theorem State.countRnd_fb (s : State) : (s.countRnd).fb = s.fb := rfl
@[simp] theorem State.countRnd_key (s : State) : (s.countRnd).key = s.key := rfl
@[simp] theorem State.countRnd_redraw (s : State) : (s.countRnd).redraw = s.redraw := rfl
@[simp] theorem State.countRnd_rndCount (s : State) : (s.countRnd).rndCount = s.rndCount + 1 := rfl
@[simp] theorem State.countRnd_readV (s : State) (q : RegName) : (s.countRnd).readV q = s.readV q := rfl
@[simp] theorem State.countRnd_readMem (s : State) (a : Nat) : (s.countRnd).readMem a = s.readMem a := rfl
@[simp] theorem State.countRnd_readKey (s : State) (q : Nibble) : (s.countRnd).readKey q = s.readKey q := rfl
@[simp] theorem State.countRnd_firstKey (s : State) : (s.countRnd).firstKey = s.firstKey := rfl
@[simp] theorem State.countRnd_indexBase (s : State) : (s.countRnd).indexBase = s.indexBase := rfl

/-! ## Reading what was written -/

/-- `V[r] <- b` changes register `r` only (R21). -/
@[simp] theorem State.readV_setV (s : State) (r q : RegName) (b : Byte) :
    (s.setV r b).readV q = if q = r then b else s.readV q := by
  simp only [State.readV, State.setV, Vector.getElem_set, BitVec.toNat_inj, eq_comm (a := r)]

@[simp] theorem State.readMem_setMem (s : State) (m : List Host.Cell) (a : Nat) :
    (s.setMem m).readMem a = Memory.read m a := rfl

@[simp] theorem State.indexBase_setI (s : State) (w : Word) : (s.setI w).indexBase = w.toNat := rfl

/-- `KEY[k] <- b` changes flag `k` only (R256). -/
@[simp] theorem State.readKey_setKey (s : State) (k q : Nibble) (b : Bool) :
    (s.setKey k b).readKey q = if q = k then b else s.readKey q := by
  simp only [State.readKey, State.setKey, Vector.getElem_set, BitVec.toNat_inj, eq_comm (a := k)]

/-- Two register files that read alike are equal. -/
theorem State.v_ext {s t : State} (h : ∀ r, s.readV r = t.readV r) : s.v = t.v := by
  apply Vector.ext
  intro k hk
  have := h (BitVec.ofNat 4 k)
  simpa only [State.readV, BitVec.toNat_ofNat, Nat.mod_eq_of_lt (show k < 2 ^ 4 by omega)] using this

end Sys2Proof.Machine
end

