-- ==== Sys2Proof/Laws/Memory.lean ====
section
/-! SUPPORT. The laws of memory: a read after a write (whatever the list's form), and that every memory operation keeps the
canonical form `Memory.wf`. -/

namespace Sys2Proof.Machine

/-! ## Read after write -/

theorem Memory.read_erase (m : List Host.Cell) (a q : Nat) :
    Memory.read (Memory.erase m a) q = if q = a then resetByte a else Memory.read m q := by
  induction m with
  | nil => by_cases h : q = a <;> simp [Memory.erase, Memory.read, h]
  | cons c rest ih =>
    simp only [Memory.erase] at ih
    by_cases hc : c.1 = a
    · by_cases hq : q = a
      · simp [Memory.erase, hc, hq] at ih ⊢; exact ih
      · simp [Memory.erase, hc, ih, hq, Memory.read]
        omega
    · by_cases hq : c.1 = q
      · have : q ≠ a := by omega
        simp [Memory.erase, Memory.read, hq, this]
      · simp [Memory.erase, hc, Memory.read, hq, ih]

theorem Memory.read_insert (m : List Host.Cell) (a : Nat) (b : Byte) (q : Nat)
    (hm : ∀ c ∈ m, c.1 ≠ a) :
    Memory.read (Memory.insert m a b) q = if q = a then b else Memory.read m q := by
  induction m with
  | nil => by_cases h : q = a <;> simp [Memory.insert, Memory.read, h, eq_comm (a := a)]
  | cons c rest ih =>
    have hc : c.1 ≠ a := hm c (by simp)
    have ih' := ih (fun d hd => hm d (List.mem_cons_of_mem _ hd))
    unfold Memory.insert
    split
    · by_cases hq : q = a
      · simp [Memory.read, hq]
      · simp [Memory.read, hq, eq_comm (a := a)]
    · by_cases hq : c.1 = q
      · have : q ≠ a := by omega
        simp [Memory.read, hq, this]
      · simp [Memory.read, hq, ih']

/-- A read after a write: the written byte at its address, every other address as before (R66, R67). -/
theorem Memory.read_write (m : List Host.Cell) (a : Nat) (b : Byte) (q : Nat) :
    Memory.read (Memory.write m a b) q = if q = a then b else Memory.read m q := by
  unfold Memory.write
  split
  · next h => rw [Memory.read_erase, h]
  · rw [Memory.read_insert, Memory.read_erase]
    · split <;> rfl
    · intro c hc
      simp [Memory.erase] at hc
      exact hc.2

/-- A read after a block write: the byte of the block inside it, every other address as before (R65, R71). -/
theorem Memory.read_writeBytes (m : List Host.Cell) (base : Nat) (bytes : List Byte) (q : Nat) :
    Memory.read (Memory.writeBytes m base bytes) q =
      if h : base ≤ q ∧ q < base + bytes.length then bytes[q - base]'(by omega) else Memory.read m q := by
  induction bytes generalizing m base with
  | nil => simp [Memory.writeBytes]
  | cons b rest ih =>
    rw [Memory.writeBytes, ih, Memory.read_write]
    by_cases h1 : q = base
    · subst h1; simp
    · by_cases h2 : base + 1 ≤ q ∧ q < base + 1 + rest.length
      · have h3 : base ≤ q ∧ q < base + (b :: rest).length := by simp; omega
        rw [dif_pos h2, dif_pos h3]
        have : q - base = (q - (base + 1)) + 1 := by omega
        simp [this]
      · have h3 : ¬ (base ≤ q ∧ q < base + (b :: rest).length) := by simp; omega
        rw [dif_neg h2, dif_neg h3, if_neg h1]

/-- Inside a written block: its byte. -/
theorem Memory.read_writeBytes_inside (m : List Host.Cell) (base : Nat) (bytes : List Byte) {k : Nat}
    (h : k < bytes.length) : Memory.read (Memory.writeBytes m base bytes) (base + k) = bytes[k] := by
  rw [Memory.read_writeBytes, dif_pos ⟨by omega, by omega⟩]
  congr 1
  omega

/-- Outside a written block: unchanged. -/
theorem Memory.read_writeBytes_outside (m : List Host.Cell) {base : Nat} {bytes : List Byte} {q : Nat}
    (h : q < base ∨ base + bytes.length ≤ q) : Memory.read (Memory.writeBytes m base bytes) q = Memory.read m q := by
  rw [Memory.read_writeBytes, dif_neg (by omega)]

@[simp] theorem Memory.readBytes_length (m : List Host.Cell) (base len : Nat) :
    (Memory.readBytes m base len).length = len := by
  induction len generalizing base with
  | zero => rfl
  | succ k ih => simp [Memory.readBytes, ih]

@[simp] theorem Memory.getElem_readBytes (m : List Host.Cell) (base len k : Nat)
    (h : k < (Memory.readBytes m base len).length) :
    (Memory.readBytes m base len)[k] = Memory.read m (base + k) := by
  induction len generalizing base k with
  | zero => simp [Memory.readBytes] at h
  | succ n ih =>
    cases k with
    | zero => rfl
    | succ j =>
      simp only [Memory.readBytes, List.getElem_cons_succ]
      rw [ih]
      congr 1
      omega

/-! ## The canonical form -/

theorem Memory.wf_nil : Memory.wf [] := ⟨List.Pairwise.nil, by simp⟩

theorem Memory.wf_erase {m : List Host.Cell} (h : Memory.wf m) (a : Nat) : Memory.wf (Memory.erase m a) :=
  ⟨h.1.filter _, fun c hc => h.2 c (List.mem_of_mem_filter hc)⟩

theorem Memory.mem_insert {m : List Host.Cell} {a : Nat} {b : Byte} {c : Host.Cell} :
    c ∈ Memory.insert m a b ↔ c = (a, b) ∨ c ∈ m := by
  induction m with
  | nil => simp [Memory.insert]
  | cons d rest ih =>
    unfold Memory.insert
    split
    · simp
    · simp [ih]; tauto

theorem Memory.wf_insert {m : List Host.Cell} (h : Memory.wf m) {a : Nat} {b : Byte} (ha : a < Config.memSize)
    (hb : b ≠ resetByte a) (hm : ∀ c ∈ m, c.1 ≠ a) : Memory.wf (Memory.insert m a b) := by
  refine ⟨?_, fun c hc => ?_⟩
  · obtain ⟨hp, -⟩ := h
    induction m with
    | nil => simp [Memory.insert]
    | cons d rest ih =>
      have hd : d.1 ≠ a := hm d (by simp)
      rw [List.pairwise_cons] at hp
      unfold Memory.insert
      split
      · next hlt =>
        rw [List.pairwise_cons, List.pairwise_cons]
        refine ⟨fun c hc => ?_, hp⟩
        rcases List.mem_cons.1 hc with rfl | hc
        · exact hlt
        · exact Nat.lt_trans hlt (hp.1 c hc)
      · rw [List.pairwise_cons]
        refine ⟨fun c hc => ?_, ih (fun c hc => hm c (List.mem_cons_of_mem _ hc)) hp.2⟩
        rcases Memory.mem_insert.1 hc with rfl | hc
        · show d.1 < a; omega
        · exact hp.1 c hc
  · rcases Memory.mem_insert.1 hc with rfl | hc
    · exact ⟨ha, hb⟩
    · exact h.2 c hc

/-- A write inside the address space keeps the canonical form. -/
theorem Memory.wf_write {m : List Host.Cell} (h : Memory.wf m) {a : Nat} (ha : a < Config.memSize) (b : Byte) :
    Memory.wf (Memory.write m a b) := by
  unfold Memory.write
  split
  · exact Memory.wf_erase h a
  · next hb =>
    refine Memory.wf_insert (Memory.wf_erase h a) ha hb (fun c hc => ?_)
    simp [Memory.erase] at hc
    exact hc.2

/-- A block write inside the address space keeps the canonical form. -/
theorem Memory.wf_writeBytes {m : List Host.Cell} (h : Memory.wf m) {base : Nat} {bytes : List Byte}
    (hb : base + bytes.length ≤ Config.memSize) : Memory.wf (Memory.writeBytes m base bytes) := by
  induction bytes generalizing m base with
  | nil => exact h
  | cons b rest ih =>
    simp only [List.length_cons] at hb
    exact ih (Memory.wf_write h (by omega) b) (by omega)

/-! ## The range check -/

/-- R62, R72: no bad address exactly when the whole range is inside the 4096 bytes. -/
@[simp] theorem badAddress_eq_none {base len : Nat} : badAddress base len = none ↔ len = 0 ∨ base + len ≤ 4096 := by
  unfold badAddress
  split <;> simp <;> omega

/-- R243: the address reported is `max base 4096`. -/
@[simp] theorem badAddress_eq_some {base len a : Nat} :
    badAddress base len = some a ↔ (0 < len ∧ 4096 < base + len) ∧ a = max base 4096 := by
  unfold badAddress
  split <;> simp <;> omega

end Sys2Proof.Machine
end

