-- ==== Sys2Proof/Laws/Ops.lean ====
section
/-! SUPPORT. One lemma for each shared operation that says everything it can do. -/

namespace Sys2Proof.Machine

/-! ## The call stack -/

/-- R152: a push fails exactly at SP = 16. -/
theorem State.pushReturn_eq_none {s : State} {a : Word} : s.pushReturn a = none ↔ s.sp.val = 16 := by
  have := s.sp.isLt
  unfold State.pushReturn
  split <;> simp <;> omega

/-- R152: what a push does. -/
theorem State.pushReturn_eq_some {s t : State} {a : Word} : s.pushReturn a = some t ↔
    ∃ h : s.sp.val < 16, t = { s with stack := s.stack.set s.sp.val a, sp := ⟨s.sp.val + 1, Nat.succ_lt_succ h⟩ } := by
  unfold State.pushReturn
  split
  · next h => simp [h, eq_comm]
  · next h => simp [h]

/-- R153: a pop fails exactly at SP = 0. -/
theorem State.popReturn_eq_none {s : State} : s.popReturn = none ↔ s.sp.val = 0 := by
  unfold State.popReturn
  split <;> simp <;> omega

/-- R153: what a pop does. -/
theorem State.popReturn_eq_some {s t : State} {a : Word} : s.popReturn = some (a, t) ↔
    ∃ h : 0 < s.sp.val, a = s.stack[s.sp.val - 1]'(by omega) ∧ t = { s with sp := ⟨s.sp.val - 1, by omega⟩ } := by
  unfold State.popReturn
  split
  · next h => simp [h, eq_comm]
  · next h => simp [h]

/-! ## Registers in a block -/

/-- R204: the bytes a register dump stores. -/
theorem State.firstRegs_length (s : State) {count : Nat} (h : count ≤ 16) : (s.firstRegs count).length = count := by
  simp [State.firstRegs]; omega

theorem State.getElem_firstRegs (s : State) (count k : Nat) (hk : k < (s.firstRegs count).length)
    (h16 : k < 16) : (s.firstRegs count)[k] = s.readV (BitVec.ofNat 4 k) := by
  simp [State.firstRegs, State.readV, Nat.mod_eq_of_lt h16]

/-- R205: a register load changes nothing but registers. -/
theorem State.loadRegs_eq (s : State) (base count : Nat) :
    s.loadRegs base count = { s with v := (s.loadRegs base count).v } := by
  induction count with
  | zero => rfl
  | succ k ih =>
    unfold State.loadRegs
    rw [ih]
    rfl

/-- R205: registers below `count` come from memory, the others are unchanged. -/
theorem State.readV_loadRegs (s : State) (base : Nat) {count : Nat} (h : count ≤ 16) (q : RegName) :
    (s.loadRegs base count).readV q = if q.toNat < count then s.readMem (base + q.toNat) else s.readV q := by
  induction count with
  | zero => rfl
  | succ k ih =>
    have hq : q = BitVec.ofNat 4 k ↔ q.toNat = k := by
      rw [← BitVec.toNat_inj, BitVec.toNat_ofNat, Nat.mod_eq_of_lt (by omega)]
    rw [State.loadRegs, State.readV_setV, ih (by omega)]
    simp only [hq]
    by_cases h1 : q.toNat = k
    · rw [if_pos h1, if_pos (by omega), h1]
    · rw [if_neg h1]
      by_cases h2 : q.toNat < k
      · rw [if_pos h2, if_pos (by omega)]
      · rw [if_neg h2, if_neg (by omega)]

/-! ## The framebuffer -/

/-- R141: flipping a cell of the framebuffer changes that cell only. -/
theorem fbCell_fbFlip (fb : Vector (BitVec 64) 32) {c : Nat} (hc : c < 2048) (d : Nat) :
    fbCell (fbFlip fb c) d = (fbCell fb d ^^ decide (d = c)) := by
  have hr : c / 64 < 32 := by omega
  by_cases h : d / 64 = c / 64
  · have : (d = c) ↔ (d % 64 = c % 64) := by omega
    simp only [fbCell, fbFlip, h, Vector.getElem?_setIfInBounds, hr, if_true, Option.getD_some,
      BitVec.getLsbD_xor, BitVec.getLsbD_shiftLeft, BitVec.getLsbD_one, this]
    congr 1
    have := Nat.mod_lt d (show 64 > 0 by decide)
    by_cases h2 : d % 64 = c % 64
    · simp [h2, Nat.mod_lt c (show 64 > 0 by decide)]
    · simp [h2]; omega
  · have : ¬ d = c := fun e => h (by rw [e])
    simp [fbCell, fbFlip, this, Ne.symm h]

/-- R140: no cell of the cleared framebuffer is set. -/
@[simp] theorem fbCell_fbClear (c : Nat) : fbCell fbClear c = false := by
  unfold fbCell fbClear
  rw [Vector.getElem?_replicate]
  split <;> simp

/-- R141: the drawing loop over pairwise distinct cells in range flips each of them, and collides exactly when one was set. -/
theorem fbDraw_spec (fb : Vector (BitVec 64) 32) (coll : Bool) {cells : List Nat} (hn : cells.Nodup)
    (hr : ∀ c ∈ cells, c < 2048) :
    (∀ d, fbCell (fbDraw fb coll cells).1 d = (fbCell fb d ^^ decide (d ∈ cells))) ∧
    (fbDraw fb coll cells).2 = (coll || cells.any (fbCell fb)) := by
  induction cells generalizing fb coll with
  | nil => simp [fbDraw]
  | cons c rest ih =>
    rw [List.nodup_cons] at hn
    have hc : c < 2048 := hr c (by simp)
    obtain ⟨h1, h2⟩ := ih (fbFlip fb c) (coll || fbCell fb c) hn.2 (fun d hd => hr d (List.mem_cons_of_mem _ hd))
    refine ⟨fun d => ?_, ?_⟩
    · rw [fbDraw, h1, fbCell_fbFlip fb hc]
      by_cases hd : d = c
      · subst hd; simp [hn.1]
      · simp [hd]
    · rw [fbDraw, h2]
      have : rest.any (fbCell (fbFlip fb c)) = rest.any (fbCell fb) := by
        rw [Bool.eq_iff_iff]
        simp only [List.any_eq_true]
        refine exists_congr fun d => and_congr_right fun hd => ?_
        have hdc : ¬ d = c := fun e => hn.1 (e ▸ hd)
        rw [fbCell_fbFlip fb hc]
        simp [hdc]
      simp [this, Bool.or_assoc]

/-- R141: the cells of one row. -/
theorem mem_rowCells {row : Byte} {cx cy c : Nat} :
    c ∈ rowCells row cx cy ↔ ∃ b, b < 8 ∧ row.getLsbD (7 - b) = true ∧ c = cy * 64 + (cx + b) := by
  simp only [rowCells, Config.fbWidth, List.mem_map, List.mem_filter, List.mem_range, and_assoc]
  exact exists_congr fun b => and_congr_right fun _ => and_congr_right fun _ => eq_comm

/-- R141: the cells of a sprite. -/
theorem mem_spriteCells {rows : List Byte} {cx cy c : Nat} :
    c ∈ spriteCells rows cx cy ↔
      ∃ r, ∃ h : r < rows.length, ∃ b, b < 8 ∧ rows[r].getLsbD (7 - b) = true ∧ c = (cy + r) * 64 + (cx + b) := by
  induction rows generalizing cy with
  | nil => simp [spriteCells]
  | cons row rest ih =>
    rw [spriteCells, List.mem_append, mem_rowCells, ih]
    constructor
    · rintro (⟨b, hb, hs, rfl⟩ | ⟨r, hr, b, hb, hs, rfl⟩)
      · exact ⟨0, by simp, b, hb, hs, rfl⟩
      · exact ⟨r + 1, by simpa using hr, b, hb, by simpa using hs, by omega⟩
    · rintro ⟨r, hr, b, hb, hs, rfl⟩
      cases r with
      | zero => exact .inl ⟨b, hb, by simpa using hs, rfl⟩
      | succ r => exact .inr ⟨r, by simpa using hr, b, hb, by simpa using hs, by omega⟩

/-- R244: no bad cell exactly when every cell is in range. -/
theorem badCell_eq_none {cells : List Nat} : badCell cells = none ↔ ∀ c ∈ cells, c ≤ 2047 := by
  simp [badCell]

/-- R244: the bad cell reported is the first in list order. -/
theorem badCell_eq_some {cells : List Nat} {c : Nat} :
    badCell cells = some c ↔ 2047 < c ∧ ∃ before after, cells = before ++ c :: after ∧ ∀ d ∈ before, d ≤ 2047 := by
  simp [badCell, List.find?_eq_some_iff_append]

/-! ## Timers and keys -/

/-- R254: one less, floored at 0. -/
@[simp] theorem toNat_countDown (t : Byte) : (countDown t).toNat = t.toNat - 1 := by
  unfold countDown
  split
  · next h => simp [h]
  · next h =>
    have : t.toNat ≠ 0 := fun e => h (by simpa using BitVec.eq_of_toNat_eq (y := 0#8) e)
    have := t.isLt
    simp [BitVec.toNat_sub]
    omega

/-- R230: no key found exactly when none is pressed. -/
theorem State.firstKey_eq_none {s : State} : s.firstKey = none ↔ ∀ k, s.readKey k = false := by
  unfold State.firstKey State.readKey
  rw [List.findIdx?_eq_none_iff]
  simp only [Vector.mem_toList_iff, id]
  constructor
  · intro h k
    exact h _ (Vector.getElem_mem _)
  · intro h b hb
    obtain ⟨k, hk, rfl⟩ := Vector.getElem_of_mem hb
    have := h (BitVec.ofNat 4 k)
    simpa [Nat.mod_eq_of_lt hk] using this

/-- R230: the key found is the least pressed one. -/
theorem State.firstKey_eq_some {s : State} {k : Nat} : s.firstKey = some k ↔
    k < 16 ∧ s.readKey (BitVec.ofNat 4 k) = true ∧ ∀ j, j < k → s.readKey (BitVec.ofNat 4 j) = false := by
  unfold State.firstKey State.readKey
  rw [List.findIdx?_eq_some_iff_getElem]
  constructor
  · rintro ⟨hk, h1, h2⟩
    have hk' : k < 16 := by simpa using hk
    refine ⟨hk', by simpa [Nat.mod_eq_of_lt hk'] using h1, fun j hj => ?_⟩
    have := h2 j hj
    simpa [Nat.mod_eq_of_lt (show j < 16 by omega)] using this
  · rintro ⟨hk, h1, h2⟩
    refine ⟨by simpa using hk, by simpa [Nat.mod_eq_of_lt hk] using h1, fun j hj => ?_⟩
    have := h2 j hj
    simpa [Nat.mod_eq_of_lt (show j < 16 by omega)] using this

/-! ## Fetching -/

/-- R122: a fetch succeeds exactly when PC is at most 4094, with the two bytes at PC. -/
theorem fetchWord_eq_ok {s : State} {w : Word} : fetchWord s = .ok w ↔
    s.pc.toNat ≤ 4094 ∧ w = wordOfBytes (s.readMem s.pc.toNat) (s.readMem (s.pc.toNat + 1)) := by
  unfold fetchWord
  split
  · next a h => simp only [badAddress_eq_some] at h; simp; omega
  · next h => simp only [badAddress_eq_none] at h; simp [eq_comm]; omega

/-- R122: a fetch above 4094 faults, reporting no word. -/
theorem fetchWord_eq_error {s : State} {f : Fault} : fetchWord s = .error f ↔
    4094 < s.pc.toNat ∧ f = .memoryFault (max s.pc.toNat 4096) s.pc none := by
  unfold fetchWord
  split
  · next a h => simp only [badAddress_eq_some] at h; obtain ⟨h1, rfl⟩ := h; simp [eq_comm]; omega
  · next h => simp only [badAddress_eq_none] at h; simp; omega

/-- R122, R123: an instruction is fetched exactly when the word at PC decodes to it. -/
theorem fetchInstr_eq_ok {s : State} {i : Instr} : fetchInstr s = .ok i ↔
    s.pc.toNat ≤ 4094 ∧ decode (wordOfBytes (s.readMem s.pc.toNat) (s.readMem (s.pc.toNat + 1))) = .ok i := by
  unfold fetchInstr
  cases hw : fetchWord s with
  | error f => have := fetchWord_eq_error.1 hw; simp; omega
  | ok w =>
    obtain ⟨hp, rfl⟩ := fetchWord_eq_ok.1 hw
    simp only [hp, true_and]
    cases decode _ <;> simp

/-- Fetching looks at PC and memory only. -/
theorem fetchInstr_congr {s t : State} (hp : s.pc = t.pc) (hm : s.mem = t.mem) : fetchInstr s = fetchInstr t := by
  simp only [fetchInstr, fetchWord, State.readMem, hp, hm]

/-- A step that answers a next state executed the instruction it fetched (inversion of R121). -/
theorem step_eq_next {s t : State} : step s = .next t ↔
    ∃ i, fetchInstr s.beginStep = .ok i ∧ exec i s.beginStep = .next t := by
  unfold step
  cases fetchInstr s.beginStep <;> simp [raise]

/-- A step that faults did so in the fetch, in decoding, or in the instruction's own meaning (inversion of R121). -/
theorem step_eq_fault {s : State} {f : Fault} : step s = .fault f ↔
    fetchInstr s.beginStep = .error f ∨ ∃ i, fetchInstr s.beginStep = .ok i ∧ exec i s.beginStep = .fault f := by
  unfold step
  cases fetchInstr s.beginStep <;> simp [raise]

end Sys2Proof.Machine
end

