-- ==== Sys2Proof/Laws/Exec.lean ====
section
/-! SUPPORT. What the operations shared by several meanings answer. -/

namespace Sys2Proof.Machine

@[simp] theorem writeReg_eq (x : RegName) (b : Byte) (s : State) :
    writeReg x b s = .next ((s.setV x b).setPc (s.pc + 2)) := rfl

@[simp] theorem writeFlagThenReg_eq (x : RegName) (flag b : Byte) (s : State) :
    writeFlagThenReg x flag b s = .next (((s.setV flagReg flag).setV x b).setPc (s.pc + 2)) := rfl

@[simp] theorem rndWith_eq (r : Byte) (x : RegName) (kk : Byte) (s : State) :
    rndWith r x kk s = .next ((s.countRnd.setV x (r &&& kk)).setPc (s.pc + 2)) := rfl

/-- R164, R165: with an index above 15 the skip faults. -/
theorem skipOnKey_above {k : Byte} (h : 15 < k.toNat) (wanted : Bool) (w : Word) (s : State) :
    skipOnKey wanted k w s = .fault (.keyIndexFault k s.pc w) := by simp [skipOnKey, raise, h]

/-- R164, R165: with an index of a key the skip tests that key. -/
theorem skipOnKey_index {k : Byte} (h : k.toNat ≤ 15) (wanted : Bool) (w : Word) (s : State) :
    skipOnKey wanted k w s = .next (s.skipIf (s.readKey (k.setWidth 4) == wanted)) := by
  simp [skipOnKey, show ¬ 15 < k.toNat by omega]

@[simp] theorem raise_eq (f : Fault) : raise f = .fault f := rfl

/-- A flag byte is 0 or 1 (R22). -/
theorem flagByte_eq (b : Bool) : flagByte b = if b then 1 else 0 := rfl

@[simp] theorem toNat_addrWord (nnn : Addr) : (addrWord nnn).toNat = nnn.toNat := by
  have := nnn.isLt
  simp [addrWord]; omega

@[simp] theorem toNat_byteWord (b : Byte) : (byteWord b).toNat = b.toNat := by
  have := b.isLt
  simp [byteWord]; omega

/-- R202: the font address of a digit, as a number. -/
theorem toNat_glyphAddress (d : Byte) : (glyphAddress d).toNat = 5 * (d.toNat % 16) := by
  simp [glyphAddress, Config.fontBase, Config.glyphSize]; omega

/-- R203: three digits. -/
theorem bcdDigits_length (v : Byte) : (bcdDigits v).length = 3 := rfl

/-- The cells of a draw in terms of memory and the coordinate registers (R141). -/
theorem State.mem_drawList {s : State} {x y : RegName} {n : Nibble} {c : Nat} : c ∈ s.drawList x y n ↔
    ∃ r, r < n.toNat ∧ ∃ b, b < 8 ∧ (s.readMem (s.i.toNat + r)).getLsbD (7 - b) = true ∧
      c = ((s.readV y).toNat + r) * 64 + ((s.readV x).toNat + b) := by
  simp only [State.drawList, mem_spriteCells, Memory.readBytes_length, Memory.getElem_readBytes, exists_prop]
  rfl

end Sys2Proof.Machine
end

