-- ==== Sys2Proof/Laws/PerInstr.lean ====
section
/-! SUPPORT. The family EncodesItsRow: the word of an instruction matches the mask and match of its row of Table OP (R95),
and its fields are well formed (R91). One lemma per constructor of `Instr`, over every value of its operands. -/

namespace Sys2Proof.Laws.EncodesItsRow

/-- The word of `i` is one of Table OP's row of `i` (R95), with consistent fields (R91). -/
def Statement (i : Instr) : Prop :=
  rowOf i ∈ opTable ∧ matchesRow (rowOf i) (encode i) = true ∧ (fieldsOf (encode i)).wf = true

/-! ## The formats under the masks of Table OP -/

theorem formatA_mask (op : Nibble) (nnn : Addr) : formatA op nnn &&& 0xF000#16 = op ++ 0x000#12 := by
  rw [show (0xF000#16 : Word) = 0xF#4 ++ 0x000#12 from rfl, formatA, BitVec.and_append]
  congr 1
  · exact BitVec.and_allOnes
  · exact BitVec.and_zero

theorem formatXI_mask (op : Nibble) (x : RegName) (kk : Byte) :
    formatXI op x kk &&& 0xF000#16 = op ++ 0x000#12 := formatA_mask op (x ++ kk)

theorem formatXYN_maskOp (op : Nibble) (x y : RegName) (n : Nibble) :
    formatXYN op x y n &&& 0xF000#16 = op ++ 0x000#12 := formatA_mask op (x ++ (y ++ n))

theorem formatXI_maskByte (op : Nibble) (x : RegName) (kk : Byte) :
    formatXI op x kk &&& 0xF0FF#16 = op ++ (0x0#4 ++ kk) := by
  rw [show (0xF0FF#16 : Word) = 0xF#4 ++ (0x0#4 ++ 0xFF#8) from rfl, formatXI, BitVec.and_append, BitVec.and_append]
  congr 1
  · exact BitVec.and_allOnes
  · congr 1
    · exact BitVec.and_zero
    · exact BitVec.and_allOnes

theorem formatXYN_mask (op : Nibble) (x y : RegName) (n : Nibble) :
    formatXYN op x y n &&& 0xF00F#16 = op ++ (0x00#8 ++ n) := by
  have h : (x ++ (y ++ n) : BitVec 12) = ((x ++ y : BitVec 8) ++ n : BitVec 12) := by
    ext k hk
    grind
  rw [show (0xF00F#16 : Word) = 0xF#4 ++ (0x00#8 ++ 0xF#4) from rfl, formatXYN, h, BitVec.and_append, BitVec.and_append]
  congr 1
  · exact BitVec.and_allOnes
  · congr 1
    · exact BitVec.and_zero
    · exact BitVec.and_allOnes

/-- Three facts make the statement; the last holds of every word. -/
theorem of_mask {i : Instr} (hr : rowOf i ∈ opTable) (h : encode i &&& (rowOf i).mask = (rowOf i).pattern) : Statement i :=
  ⟨hr, by simp [matchesRow, h], fieldsOf_wf _⟩

/-- `rowOf i` does not look at the operands, so its membership is decided by computing. -/
theorem row_mem {r : OpRow} (h : opTable.contains r = true) : r ∈ opTable := by simpa using h

/-! ## One lemma per instruction -/

theorem cls : Statement .cls := of_mask (row_mem rfl) (rfl)
theorem ret : Statement .ret := of_mask (row_mem rfl) (rfl)
theorem jp (nnn : Addr) : Statement (.jp nnn) := of_mask (row_mem rfl) (formatA_mask _ _)
theorem call (nnn : Addr) : Statement (.call nnn) := of_mask (row_mem rfl) (formatA_mask _ _)
theorem seImm (x : RegName) (kk : Byte) : Statement (.seImm x kk) := of_mask (row_mem rfl) (formatXI_mask _ _ _)
theorem sneImm (x : RegName) (kk : Byte) : Statement (.sneImm x kk) := of_mask (row_mem rfl) (formatXI_mask _ _ _)
theorem seReg (x y : RegName) : Statement (.seReg x y) := of_mask (row_mem rfl) (formatXYN_mask _ _ _ _)
theorem ldImm (x : RegName) (kk : Byte) : Statement (.ldImm x kk) := of_mask (row_mem rfl) (formatXI_mask _ _ _)
theorem addImm (x : RegName) (kk : Byte) : Statement (.addImm x kk) := of_mask (row_mem rfl) (formatXI_mask _ _ _)
theorem ldReg (x y : RegName) : Statement (.ldReg x y) := of_mask (row_mem rfl) (formatXYN_mask _ _ _ _)
theorem orReg (x y : RegName) : Statement (.orReg x y) := of_mask (row_mem rfl) (formatXYN_mask _ _ _ _)
theorem andReg (x y : RegName) : Statement (.andReg x y) := of_mask (row_mem rfl) (formatXYN_mask _ _ _ _)
theorem xorReg (x y : RegName) : Statement (.xorReg x y) := of_mask (row_mem rfl) (formatXYN_mask _ _ _ _)
theorem addReg (x y : RegName) : Statement (.addReg x y) := of_mask (row_mem rfl) (formatXYN_mask _ _ _ _)
theorem sub (x y : RegName) : Statement (.sub x y) := of_mask (row_mem rfl) (formatXYN_mask _ _ _ _)
theorem shr (x y : RegName) : Statement (.shr x y) := of_mask (row_mem rfl) (formatXYN_mask _ _ _ _)
theorem subn (x y : RegName) : Statement (.subn x y) := of_mask (row_mem rfl) (formatXYN_mask _ _ _ _)
theorem shl (x y : RegName) : Statement (.shl x y) := of_mask (row_mem rfl) (formatXYN_mask _ _ _ _)
theorem sneReg (x y : RegName) : Statement (.sneReg x y) := of_mask (row_mem rfl) (formatXYN_mask _ _ _ _)
theorem ldI (nnn : Addr) : Statement (.ldI nnn) := of_mask (row_mem rfl) (formatA_mask _ _)
theorem jpV0 (nnn : Addr) : Statement (.jpV0 nnn) := of_mask (row_mem rfl) (formatA_mask _ _)
theorem rnd (x : RegName) (kk : Byte) : Statement (.rnd x kk) := of_mask (row_mem rfl) (formatXI_mask _ _ _)
theorem drw (x y : RegName) (n : Nibble) : Statement (.drw x y n) := of_mask (row_mem rfl) (formatXYN_maskOp _ _ _ _)
theorem skp (x : RegName) : Statement (.skp x) := of_mask (row_mem rfl) (formatXI_maskByte _ _ _)
theorem sknp (x : RegName) : Statement (.sknp x) := of_mask (row_mem rfl) (formatXI_maskByte _ _ _)
theorem ldVxDt (x : RegName) : Statement (.ldVxDt x) := of_mask (row_mem rfl) (formatXI_maskByte _ _ _)
theorem ldVxK (x : RegName) : Statement (.ldVxK x) := of_mask (row_mem rfl) (formatXI_maskByte _ _ _)
theorem ldDtVx (x : RegName) : Statement (.ldDtVx x) := of_mask (row_mem rfl) (formatXI_maskByte _ _ _)
theorem ldStVx (x : RegName) : Statement (.ldStVx x) := of_mask (row_mem rfl) (formatXI_maskByte _ _ _)
theorem addI (x : RegName) : Statement (.addI x) := of_mask (row_mem rfl) (formatXI_maskByte _ _ _)
theorem ldF (x : RegName) : Statement (.ldF x) := of_mask (row_mem rfl) (formatXI_maskByte _ _ _)
theorem ldB (x : RegName) : Statement (.ldB x) := of_mask (row_mem rfl) (formatXI_maskByte _ _ _)
theorem ldMemVx (x : RegName) : Statement (.ldMemVx x) := of_mask (row_mem rfl) (formatXI_maskByte _ _ _)
theorem ldVxMem (x : RegName) : Statement (.ldVxMem x) := of_mask (row_mem rfl) (formatXI_maskByte _ _ _)

end Sys2Proof.Laws.EncodesItsRow
end

