-- ==== Sys2Proof/Tests/Slice0.lean ====
section
/-! SUPPORT. Tests of this model, the expected results taken from spec/95_test_vectors.md (the vector is named at each), the
words from Table OP of spec/30_encoding.md; the refusals of WellFormed; and for each statement with hypotheses a state and
operands that meet them. -/

namespace Sys2Proof.Tests

open Sys2Proof.Machine Sys2Proof.Safety

/-! ## Helpers -/

/-- The start of a vector: the reset state with the word at PC. -/
def ready (w : Word) : State := State.reset.placeWord w

/-- The reset state with PC moved and the word there. -/
def readyAt (pc w : Word) : State := (State.reset.setPc pc).placeWord w

/-- The step completes and the state after it passes a check. -/
def after (s : State) (check : State → Bool) : Bool :=
  match step s with
  | .next t => check t
  | .fault _ => false
  | .refused _ => false

/-- The step faults with `f`. -/
def faults (s : State) (f : Fault) : Bool :=
  match step s with
  | .next _ => false
  | .fault g => g == f
  | .refused _ => false

/-- The word is the instruction's, read and written. -/
def codes (w : Word) (i : Instr) : Bool :=
  encode i == w && match decode w with
    | .ok j => j == i
    | .error _ => false

/-- The word is invalid. -/
def invalid (w : Word) : Bool :=
  match decode w with
  | .ok _ => false
  | .error e => e == .invalidWord w

/-- Some bytes stored in memory. -/
def store (s : State) (a : Nat) (bytes : List Byte) : State := s.setMem (Memory.writeBytes s.mem a bytes)

/-! ## WellFormed refuses what is ill-formed -/

/-- `kk` of 0x8014 is 0x14, not 0x15 (R91). -/
theorem test_fields_kk_refused : ({ fieldsOf 0x8014#16 with kk := 0x15 } : Fields).wf = false ∧
    ({ fieldsOf 0x8014#16 with kk := 0x15 } : Fields).lowByteAgrees = false := by decide

/-- `nnn` of 0x8014 is 0x014, not 0x114 (R91). -/
theorem test_fields_nnn_refused : ({ fieldsOf 0x8014#16 with nnn := 0x114 } : Fields).wf = false ∧
    ({ fieldsOf 0x8014#16 with nnn := 0x114 } : Fields).addressAgrees = false := by decide

/-- The fields of a word agree. -/
theorem test_fields_accepted : (fieldsOf 0x8014#16).wf = true := by decide

/-- H2, H3: 3584 bytes fit, 3585 do not (R282). -/
theorem test_image_refused :
    imageFits (List.replicate 3584 0xAA) = true ∧ imageFits (List.replicate 3585 0xAA) = false := by
  decide +kernel

/-! ## Decoding: one word of every row of Table OP, written out bit by bit -/

/-- 00E0; DXYN with x = 1, y = 2, n = 5. -/
theorem test_decode_display : codes 0b0000000011100000#16 .cls ∧ codes 0b1101000100100101#16 (.drw 1 2 5) := by decide

/-- 1NNN, BNNN, 2NNN with nnn = 0x20C; 00EE. -/
theorem test_decode_flow :
    codes 0b0001001000001100#16 (.jp 0x20C) ∧ codes 0b1011001000001100#16 (.jpV0 0x20C) ∧
    codes 0b0010001000001100#16 (.call 0x20C) ∧ codes 0b0000000011101110#16 .ret := by decide

/-- 3XNN, 4XNN with x = 5, kk = 06; 5XY0, 9XY0 with x = 1, y = 2; EX9E, EXA1 with x = 3. -/
theorem test_decode_skip :
    codes 0b0011010100000110#16 (.seImm 5 0x06) ∧ codes 0b0100010100000110#16 (.sneImm 5 0x06) ∧
    codes 0b0101000100100000#16 (.seReg 1 2) ∧ codes 0b1001000100100000#16 (.sneReg 1 2) ∧
    codes 0b1110001110011110#16 (.skp 3) ∧ codes 0b1110001110100001#16 (.sknp 3) := by decide

/-- 6XNN with x = A, kk = FF; 7XNN with x = 1, kk = 02; 8XY0 with x = 1, y = F. -/
theorem test_decode_constant :
    codes 0b0110101011111111#16 (.ldImm 0xA 0xFF) ∧ codes 0b0111000100000010#16 (.addImm 1 0x02) ∧
    codes 0b1000000111110000#16 (.ldReg 1 0xF) := by decide

/-- 8XY1, 8XY2, 8XY3, 8XY6, 8XYE with x = 1, y = 2. -/
theorem test_decode_bitwise :
    codes 0b1000000100100001#16 (.orReg 1 2) ∧ codes 0b1000000100100010#16 (.andReg 1 2) ∧
    codes 0b1000000100100011#16 (.xorReg 1 2) ∧ codes 0b1000000100100110#16 (.shr 1 2) ∧
    codes 0b1000000100101110#16 (.shl 1 2) := by decide

/-- 8XY4, 8XY5, 8XY7 with x = F, y = 2. -/
theorem test_decode_arithmetic :
    codes 0b1000111100100100#16 (.addReg 0xF 2) ∧ codes 0b1000111100100101#16 (.sub 0xF 2) ∧
    codes 0b1000111100100111#16 (.subn 0xF 2) := by decide

/-- ANNN with nnn = 0x300; FX1E, FX29, FX33, FX55, FX65 with x = 2. -/
theorem test_decode_memory :
    codes 0b1010001100000000#16 (.ldI 0x300) ∧ codes 0b1111001000011110#16 (.addI 2) ∧
    codes 0b1111001000101001#16 (.ldF 2) ∧ codes 0b1111001000110011#16 (.ldB 2) ∧
    codes 0b1111001001010101#16 (.ldMemVx 2) ∧ codes 0b1111001001100101#16 (.ldVxMem 2) := by decide

/-- FX07, FX15, FX18 with x = 3; CXNN with x = 1, kk = 0F; FX0A with x = 5. -/
theorem test_decode_timer_random_key :
    codes 0b1111001100000111#16 (.ldVxDt 3) ∧ codes 0b1111001100010101#16 (.ldDtVx 3) ∧
    codes 0b1111001100011000#16 (.ldStVx 3) ∧ codes 0b1100000100001111#16 (.rnd 1 0x0F) ∧
    codes 0b1111010100001010#16 (.ldVxK 5) := by decide

/-- FD5 to FD12: words that match no row. -/
theorem test_decode_invalid :
    invalid 0x0000 ∧ invalid 0x5121 ∧ invalid 0x8128 ∧ invalid 0x812F ∧ invalid 0xE19F ∧ invalid 0xF1FF ∧
    invalid 0x00E1 ∧ invalid 0x01E0 ∧ invalid 0x0123 ∧ invalid 0x9121 := by decide

/-- R90: one byte is no instruction, and what follows the two bytes is handed back. -/
theorem test_decode_bytes :
    (match decodeBytes [0x60] with | .error e => e == .truncated | .ok _ => false) = true ∧
    (match decodeBytes [0x12, 0x34, 0x56] with | .ok r => r == (.jp 0x234, [0x56]) | .error _ => false) = true := by decide

/-! ## The step -/

/-- FD1: big-endian fetch. -/
theorem test_fetch_big_endian : after (store State.reset 0x200 [0x12, 0x34]) (fun t => t.pc == 0x234) = true := by decide

/-- FD2: an odd PC fetches. -/
theorem test_fetch_odd_pc : after (readyAt 0x201 0x6007) (fun t => t.readV 0 == 0x07 && t.pc == 0x203) = true := by decide

/-- FD3, FD4: the last word of memory runs, and the next address does not fetch. -/
theorem test_fetch_end_of_memory :
    after (readyAt 0xFFE 0x6001) (fun t => t.readV 0 == 1 && t.pc == 0x1000) = true ∧
    faults (State.reset.setPc 0x1000) (.memoryFault 0x1000 0x1000 none) = true ∧
    faults (State.reset.setPc 0xFFF) (.memoryFault 0x1000 0xFFF none) = true := by decide

/-- FD5, FD6: invalid words. -/
theorem test_invalid_faults :
    faults State.reset (.invalidInstruction 0x0000 0x200) = true ∧
    faults (ready 0x5121) (.invalidInstruction 0x5121 0x200) = true := by decide

/-- FD13, FD14: REDRAW is cleared by a completed step and by a faulting one. -/
theorem test_step_clears_redraw :
    (hostStep ((ready 0x6000).setRedraw true)).1 = (ready 0x6000).setPc 0x202 ∧
    hostStep (State.reset.setRedraw true) = (State.reset, .fault (.invalidInstruction 0x0000 0x200)) := by decide +kernel

/-! ## Display -/

/-- The state of DR2. -/
def drawStart : State := (((store (ready 0xD122) 0x300 [0xF0, 0x10]).setI 0x300).setV 1 2).setV 2 1

/-- The indices of the cells that are set. -/
def lit (s : State) : List Nat := (List.range 2048).filter (fbCell s.fb)

/-- DR1. -/
theorem test_cls : after ((ready 0x00E0).setFb (fbFlip (fbFlip fbClear 0) 2047))
    (fun t => lit t == [] && t.redraw && t.pc == 0x202) = true := by decide +kernel

/-- DR2, DR3: the cells drawn; and the same draw over those cells. -/
theorem test_drw : after drawStart (fun t => lit t == [66, 67, 68, 69, 133] && t.readV 0xF == 0 && t.redraw &&
    t.i == 0x300 && t.pc == 0x202) = true ∧
    after (drawStart.setFb ([66, 67, 68, 69, 133].foldl fbFlip fbClear))
      (fun t => lit t == [] && t.readV 0xF == 1 && t.redraw) = true := by decide +kernel

/-- DR4, DR5, DR13: a spill into the next row, a cell past the end, memory before framebuffer. -/
theorem test_drw_edges :
    after (((store (ready 0xD121) 0x300 [0xFF]).setI 0x300).setV 1 62)
      (fun t => lit t == [62, 63, 64, 65, 66, 67, 68, 69] && t.readV 0xF == 0) = true ∧
    faults ((((store (ready 0xD121) 0x300 [0xFF]).setI 0x300).setV 1 60).setV 2 31) (.framebufferFault 2048 0x200 0xD121) = true ∧
    faults (((store (ready 0xD123) 0xFFE [0x80, 0x80]).setI 0xFFE).setV 2 40) (.memoryFault 0x1000 0x200 (some 0xD123)) = true := by
  decide +kernel

/-! ## Flow -/

/-- FL1. -/
theorem test_jp : after (readyAt 0x20A 0x1204) (fun t => t.pc == 0x204) = true := by decide

/-- FL4, FL5. -/
theorem test_jp_v0 : after ((ready 0xB300).setV 0 0x04) (fun t => t.pc == 0x304) = true ∧
    after ((ready 0xBFFF).setV 0 0xFF) (fun t => t.pc == 0x10FE) = true ∧
    faults (State.reset.setPc 0x10FE) (.memoryFault 0x10FE 0x10FE none) = true := by decide

/-- FL8, FL9: the sixteenth nested call and the seventeenth. -/
theorem test_call : after { ready 0x2300 with sp := 15 } (fun t => t.stack[15] == 0x202 && t.sp == 16 && t.pc == 0x300) = true ∧
    faults { ready 0x2300 with sp := 16 } (.stackOverflow 0x200 0x2300) = true := by decide

/-- FL10, FL11: a return keeps the slot; a return with nothing held. -/
theorem test_ret :
    after { readyAt 0x210 0x00EE with sp := 1, stack := State.reset.stack.set 0 0x208 }
      (fun t => t.sp == 0 && t.pc == 0x208 && t.stack[0] == 0x208) = true ∧
    faults (ready 0x00EE) (.stackUnderflow 0x200 0x00EE) = true := by decide

/-! ## Skips -/

/-- SK1, SK2. -/
theorem test_skip_immediate :
    after ((ready 0x3505).setV 5 5) (fun t => t.pc == 0x204) = true ∧ after ((ready 0x3506).setV 5 5) (fun t => t.pc == 0x202) = true ∧
    after ((ready 0x4505).setV 5 5) (fun t => t.pc == 0x202) = true ∧ after ((ready 0x4506).setV 5 5) (fun t => t.pc == 0x204) = true := by
  decide

/-- SK3, SK4. -/
theorem test_skip_registers :
    after (((ready 0x5120).setV 1 7).setV 2 7) (fun t => t.pc == 0x204) = true ∧
    after (((ready 0x9120).setV 1 7).setV 2 7) (fun t => t.pc == 0x202) = true ∧
    after (((ready 0x5120).setV 1 7).setV 2 8) (fun t => t.pc == 0x202) = true ∧
    after (((ready 0x9120).setV 1 7).setV 2 8) (fun t => t.pc == 0x204) = true := by decide

/-- SK7, SK9. -/
theorem test_skip_key :
    after (((ready 0xE39E).setV 3 0x0A).setKey 10 true) (fun t => t.pc == 0x204) = true ∧
    after (((ready 0xE3A1).setV 3 0x0A).setKey 10 true) (fun t => t.pc == 0x202) = true ∧
    faults ((ready 0xE39E).setV 3 0x10) (.keyIndexFault 16 0x200 0xE39E) = true := by decide

/-! ## Constants, bitwise, arithmetic -/

/-- CA1, CA3, CA6. -/
theorem test_constant :
    after (ready 0x6AFF) (fun t => t.readV 0xA == 0xFF && t.pc == 0x202) = true ∧
    after ((ready 0x7102).setV 1 0xFF) (fun t => t.readV 1 == 0x01 && t.readV 0xF == 0) = true ∧
    after ((ready 0x8120).setV 2 0x3C) (fun t => t.readV 1 == 0x3C && t.readV 2 == 0x3C) = true := by decide

/-- BW1, BW2, BW3. -/
theorem test_logic :
    after ((((ready 0x8121).setV 1 0x0F).setV 2 0xF0).setV 0xF 0x55) (fun t => t.readV 1 == 0xFF && t.readV 0xF == 0x55) = true ∧
    after (((ready 0x8122).setV 1 0x3C).setV 2 0x0F) (fun t => t.readV 1 == 0x0C) = true ∧
    after (((ready 0x8123).setV 1 0xFF).setV 2 0x0F) (fun t => t.readV 1 == 0xF0) = true := by decide

/-- BW5, BW9, BW12, BW13: `y` is ignored; VF as the shifted register. -/
theorem test_shifts :
    after (((ready 0x8126).setV 1 0x05).setV 2 0xEE) (fun t => t.readV 1 == 0x02 && t.readV 0xF == 1 && t.readV 2 == 0xEE) = true ∧
    after ((ready 0x810E).setV 1 0x81) (fun t => t.readV 1 == 0x02 && t.readV 0xF == 1) = true ∧
    after ((ready 0x8F06).setV 0xF 0x81) (fun t => t.readV 0xF == 0x40) = true ∧
    after ((ready 0x8F0E).setV 0xF 0x81) (fun t => t.readV 0xF == 0x02) = true := by decide

/-- AR1, AR6, AR7. -/
theorem test_add_reg :
    after (((ready 0x8124).setV 1 0xFF).setV 2 0x01) (fun t => t.readV 1 == 0x00 && t.readV 0xF == 1 && t.pc == 0x202) = true ∧
    after (((ready 0x8F24).setV 0xF 0x81).setV 2 0x90) (fun t => t.readV 0xF == 0x11) = true ∧
    after (((ready 0x81F4).setV 1 0x10).setV 0xF 0x03) (fun t => t.readV 1 == 0x13 && t.readV 0xF == 0) = true := by decide

/-- AR8, AR9, AR13, and AR14, AR17, AR18. -/
theorem test_sub_subn :
    after (((ready 0x8125).setV 1 0x01).setV 2 0x02) (fun t => t.readV 1 == 0xFF && t.readV 0xF == 0) = true ∧
    after (((ready 0x8125).setV 1 0x05).setV 2 0x05) (fun t => t.readV 1 == 0x00 && t.readV 0xF == 1) = true ∧
    after (((ready 0x8F25).setV 0xF 0x81).setV 2 0x90) (fun t => t.readV 0xF == 0xF1) = true ∧
    after (((ready 0x8127).setV 1 0x02).setV 2 0x01) (fun t => t.readV 1 == 0xFF && t.readV 0xF == 0) = true ∧
    after ((ready 0x8127).setV 1 0xFF) (fun t => t.readV 1 == 0x01 && t.readV 0xF == 0) = true ∧
    after (((ready 0x8F27).setV 0xF 0x81).setV 2 0x90) (fun t => t.readV 0xF == 0x0F) = true := by decide

/-! ## Memory and the index register -/

/-- M1, M4, M6, M7. -/
theorem test_index :
    after (ready 0xA300) (fun t => t.i == 0x300) = true ∧
    after (((ready 0xF11E).setI 0x0FFE).setV 1 0x03) (fun t => t.i == 0x1001 && t.readV 0xF == 1) = true ∧
    after (((ready 0xF11E).setI 0xFFFF).setV 1 0x02) (fun t => t.i == 0x0001 && t.readV 0xF == 1) = true ∧
    after ((ready 0xF029).setV 0 0xA7) (fun t => t.i == 0x0023) = true := by decide

/-- M8, M14. -/
theorem test_bcd :
    after (((ready 0xF033).setI 0x300).setV 0 0x9C)
      (fun t => Memory.readBytes t.mem 0x300 3 == [0x01, 0x05, 0x06] && t.i == 0x300) = true ∧
    faults ((ready 0xF033).setI 0xFFE) (.memoryFault 0x1000 0x200 (some 0xF033)) = true := by decide

/-- M9 (the dump), M13. -/
theorem test_dump :
    after (((((ready 0xF255).setI 0x300).setV 0 0x11).setV 1 0x22).setV 2 0x33)
      (fun t => Memory.readBytes t.mem 0x300 4 == [0x11, 0x22, 0x33, 0x00] && t.i == 0x303) = true ∧
    faults ((ready 0xFF55).setI 0xFF1) (.memoryFault 0x1000 0x200 (some 0xFF55)) = true := by decide

/-- The example of R205, M16. -/
theorem test_load :
    after ((store (ready 0xF265) 0x300 [0x00, 0x01, 0x05]).setI 0x300)
      (fun t => t.readV 0 == 0 && t.readV 1 == 1 && t.readV 2 == 5 && t.i == 0x303) = true ∧
    faults ((ready 0xF065).setI 0x1001) (.memoryFault 0x1001 0x200 (some 0xF065)) = true := by decide

/-! ## Timers, random, keys -/

/-- T1, T2, T3. -/
theorem test_timers :
    after ((ready 0xF307).setDt 0x2A) (fun t => t.readV 3 == 0x2A && t.dt == 0x2A) = true ∧
    after ((ready 0xF315).setV 3 0x3C) (fun t => t.dt == 0x3C && t.st == 0) = true ∧
    after ((ready 0xF318).setV 3 0x05) (fun t => t.st == 0x05 && t.dt == 0) = true := by decide

/-- T8, T9, with the random byte given: nothing is known of the free byte itself. -/
theorem test_rnd :
    (match rndWith 0xB7 1 0x0F State.reset with | .next t => t.readV 1 == 0x07 && t.rndCount == 1 | _ => false) = true ∧
    (match rndWith 0xB7 1 0xFF State.reset with | .next t => t.readV 1 == 0xB7 && t.rndCount == 1 | _ => false) = true := by decide

/-- K1, K4. -/
theorem test_key_wait :
    hostStep ((ready 0xF50A).setRedraw true) = (ready 0xF50A, .awaitingKeyInput) ∧
    after ((((ready 0xF50A).setKey 3 true).setKey 7 true).setKey 12 true) (fun t => t.readV 5 == 3 && t.pc == 0x202) = true := by
  decide +kernel

/-! ## Host transactions -/

/-- H3: a load of 3585 bytes is refused and changes nothing. -/
theorem test_load_refused : (transact (.load (List.replicate 3585 0xAA)) State.reset).1 = State.reset := by
  have h : imageFits (List.replicate 3585 0xAA) = false := test_image_refused.2
  simp only [transact, load, h]; rfl

/-- H1. -/
theorem test_reset_font :
    Memory.readBytes State.reset.mem 0 5 = [0xF0, 0x90, 0x90, 0x90, 0xF0] ∧
    Memory.readBytes State.reset.mem 0x4B 6 = [0xF0, 0x80, 0xF0, 0x80, 0x80, 0x00] := by decide

/-- T5, H5, H7 on single transactions. -/
theorem test_host_ports :
    advanceTimers (advanceTimers ((State.reset.setDt 1).setSt 1)) = State.reset ∧
    (consumeRedrawFlag (hostStep (ready 0x00E0)).1).2 = true ∧
    (setKeyPressed 9 State.reset).readKey 9 = true ∧ setKeyReleased 9 (setKeyPressed 9 State.reset) = State.reset := by decide +kernel

/-- The table's word placed at reset is fetched and run, and its decoding is the table's row. -/
theorem test_fetch_word :
    decodeTableWord 16 0x8014 = some (.addReg 0 1) ∧ decodeTableWord 16 0x0000 = none ∧
    after ((State.reset.withFetchWord 16 0x6005)) (fun t => t.readV 0 == 5 && t.pc == 0x202) = true := by decide

/-! ## The hypotheses of the statements can be met

One theorem for each statement that has hypotheses; where it has several clauses, each clause at a boundary value. -/

/-- Obligations.EncodeOfDecode. -/
theorem witness_EncodeOfDecode : decode 0x8126#16 = .ok (.shr 1 2) := by rfl

/-- Obligations.TableDecidesDecoding: a row of the table, a word that matches it, and a word that matches none. -/
theorem witness_TableDecidesDecoding :
    (⟨0xF0FF, 0xF065⟩ : OpRow) ∈ opTable ∧ matchesRow ⟨0xF0FF, 0xF065⟩ 0xFF65 = true ∧
    ∀ r ∈ opTable, matchesRow r 0x00E1 = false := by decide

/-- Obligations.StepRunsDecodedInstruction and Obligations.StoredWordIsFetched, at the last PC that fetches. -/
theorem witness_StepRunsDecodedInstruction : (readyAt 0xFFE 0x6001).pc.toNat = 4094 ∧
    decode (wordOfBytes ((readyAt 0xFFE 0x6001).readMem 4094) ((readyAt 0xFFE 0x6001).readMem 4095)) = .ok (.ldImm 0 0x01) :=
  ⟨by decide, by rfl⟩

/-- Obligations.FetchAbove4094Faults, both clauses. -/
theorem witness_FetchAbove4094Faults :
    (State.reset.setPc 0x0FFF).pc.toNat = 4095 ∧ 4095 < (State.reset.setPc 0x1000).pc.toNat := by decide

/-- Obligations.UnmatchedWordFaults. -/
theorem witness_UnmatchedWordFaults : State.reset.pc.toNat ≤ 4094 ∧
    0x0000#16 = wordOfBytes (State.reset.readMem State.reset.pc.toNat) (State.reset.readMem (State.reset.pc.toNat + 1)) ∧
    ∀ r ∈ opTable, matchesRow r 0x0000#16 = false := by decide

/-- Obligations.FaultingStepIsPrecise and Obligations.FaultReportsPcAndWord, with a word fetched and without. -/
theorem witness_FaultingStepIsPrecise :
    step State.reset = .fault (.invalidInstruction 0x0000 0x0200) ∧
    step (State.reset.setPc 0x0FFF) = .fault (.memoryFault 4096 0x0FFF none) := ⟨by rfl, by rfl⟩

/-- Obligations.FaultsRepeat: a state that differs in all the parts that do not matter. -/
theorem witness_FaultsRepeat : ∃ t : State, step State.reset = .fault (.invalidInstruction 0x0000 0x0200) ∧
    t.mem = State.reset.mem ∧ t.pc = State.reset.pc ∧ t.v = State.reset.v ∧ t.i = State.reset.i ∧ t.sp = State.reset.sp ∧
    t.dt ≠ State.reset.dt ∧ t.st ≠ State.reset.st ∧ t.redraw ≠ State.reset.redraw ∧ t.rndCount ≠ State.reset.rndCount :=
  ⟨{ State.reset with dt := 1, st := 1, redraw := true, rndCount := 7 }, by rfl, rfl, rfl, rfl, rfl, rfl,
    by decide, by decide, by decide, by decide⟩

/-- Obligations.OnlyRndConsumes, both clauses. -/
theorem witness_OnlyRndConsumes : (∃ x kk, fetchInstr (ready 0xC10F) = .ok (.rnd x kk)) ∧
    ¬ ∃ x kk, fetchInstr (ready 0x00E0) = .ok (.rnd x kk) :=
  ⟨⟨1, 0x0F, by rfl⟩, fun ⟨_, _, h⟩ => by
    have h0 : fetchInstr (ready 0x00E0) = .ok .cls := by rfl
    rw [h0] at h; cases h⟩

/-- Obligations.PcFollowsTablePcu, Obligations.WritesFollowTableS, Obligations.RegistersWrittenAreNamed. -/
theorem witness_RegistersWrittenAreNamed :
    (∃ t, exec (.addReg 1 2) State.reset = .next t) ∧ mayWriteReg (.addReg 1 2) 3 = false := ⟨⟨_, rfl⟩, by decide⟩

/-- Obligations.CompareSkipsMovePc: each branch of each form. -/
theorem witness_CompareSkipsMovePc :
    (State.reset.setV 5 5).readV 5 = 0x05 ∧ (State.reset.setV 5 5).readV 5 ≠ 0x06 ∧
    (State.reset.setV 5 5).readV 5 = (State.reset.setV 5 5).readV 5 ∧
    (State.reset.setV 5 5).readV 5 ≠ (State.reset.setV 5 5).readV 6 := by decide

/-- Obligations.KeySkipsTestTheLevel, with the highest key. -/
theorem witness_KeySkipsTestTheLevel : ((State.reset.setV 3 0x0F).readV 3).toNat = (0xF#4).toNat := by decide

/-- Obligations.KeyIndexAbove15Faults, with the lowest value that is no key. -/
theorem witness_KeyIndexAbove15Faults : 15 < ((State.reset.setV 3 0x10).readV 3).toNat := by decide

/-- Obligations.CallPushesOrOverflows, each clause at its boundary. -/
theorem witness_CallPushesOrOverflows :
    ({ State.reset with sp := 15 } : State).sp.val < 16 ∧ ({ State.reset with sp := 16 } : State).sp.val = 16 := by decide

/-- Obligations.ReturnPopsOrUnderflows, each clause at its boundaries. -/
theorem witness_ReturnPopsOrUnderflows :
    ({ State.reset with sp := 1 } : State).sp.val = (0 : Fin 16).val + 1 ∧
    ({ State.reset with sp := 16 } : State).sp.val = (15 : Fin 16).val + 1 ∧ State.reset.sp.val = 0 := by decide

/-- Obligations.ReturnUndoesCall, from the deepest call that succeeds. -/
theorem witness_ReturnUndoesCall : ∃ t u : State, exec (.call 0x20C) { State.reset with sp := 15 } = .next t ∧
    u.stack = t.stack ∧ u.sp = t.sp := ⟨_, _, rfl, rfl, rfl⟩

/-- Obligations.BcdStoresThreeDigits, with the last legal base. -/
theorem witness_BcdStoresThreeDigits : (State.reset.setI 0x0FFD).indexBase + 2 = 4095 := by decide

/-- Obligations.RegisterDumpStoresBlock and Obligations.RegisterLoadReadsBlock, with the last legal base. -/
theorem witness_RegisterDumpStoresBlock : (State.reset.setI 0x0FF0).indexBase + (0xF#4).toNat = 4095 := by decide

/-- Obligations.BlockAbove4095Faults, each clause with the first base that faults. -/
theorem witness_BlockAbove4095Faults : (State.reset.setI 0x0FFE).indexBase + 2 = 4096 ∧
    (State.reset.setI 0x0FF1).indexBase + (0xF#4).toNat = 4096 := by decide

/-- Obligations.ReloadRestoresDump, with I set back. -/
theorem witness_ReloadRestoresDump : ∃ t u : State, exec (.ldMemVx 0xF) (State.reset.setI 0x0FF0) = .next t ∧
    u.mem = t.mem ∧ u.i = (State.reset.setI 0x0FF0).i :=
  ⟨_, (State.reset.setI 0x0FF0), rfl, by decide, rfl⟩

/-- Obligations.RandomByteUnderMask: a bit outside the mask. -/
theorem witness_RandomByteUnderMask : (0x0F#8).getLsbD 4 = false := by decide

/-- Obligations.KeyWaitStoresLowestKey: no key; and the highest key alone. -/
theorem witness_KeyWaitStoresLowestKey : (∀ k, State.reset.readKey k = false) ∧
    (State.reset.setKey 0xF true).readKey 0xF = true ∧
    ∀ j : Nibble, j.toNat < (0xF#4).toNat → (State.reset.setKey 0xF true).readKey j = false := by decide

/-- Obligations.AwaitingKeyInputExactly. -/
theorem witness_AwaitingKeyInputExactly :
    fetchInstr (ready 0xF50A) = .ok (.ldVxK 5) ∧ ∀ k, (ready 0xF50A).readKey k = false := ⟨by rfl, by decide⟩

/-- Obligations.DrawFlipsCoveredCells: no rows with I above memory; and the last two bytes of memory as rows. -/
theorem witness_DrawFlipsCoveredCells :
    ((0#4).toNat = 0 ∧ ∀ c, covered (State.reset.setI 0x1234) 1 2 0 c → c ≤ 2047) ∧
    ((State.reset.setI 0x0FFE).indexBase + (2#4).toNat = 4096 ∧
      ∀ c, covered (State.reset.setI 0x0FFE) 1 2 2 c → c ≤ 2047) := by
  refine ⟨⟨rfl, ?_⟩, by decide, ?_⟩
  · rintro c ⟨r, hr, -⟩; exact absurd hr (Nat.not_lt_zero r)
  · rintro c ⟨r, hr, b, hb, -, hc⟩
    have hr : r < 2 := hr
    have hc : c = (0 + r) * 64 + (0 + b) := hc
    omega

/-- The state of DR5: the fifth cell of the row is the first beyond the framebuffer. -/
def drawPastEnd : State := (((store State.reset 0x300 [0xFF]).setI 0x300).setV 1 60).setV 2 31

/-- Obligations.DrawFaultsInOrder: a row one byte past memory; and DR5, whose first bad cell is 2048. -/
theorem witness_DrawFaultsInOrder :
    (0 < (3#4).toNat ∧ 4096 < (State.reset.setI 0x0FFE).indexBase + (3#4).toNat) ∧
    (drawPastEnd.indexBase + (1#4).toNat ≤ 4096 ∧
      (drawPastEnd.readMem (drawPastEnd.indexBase + 0)).getLsbD (7 - 4) = true ∧
      2047 < ((drawPastEnd.readV 2).toNat + 0) * 64 + ((drawPastEnd.readV 1).toNat + 4) ∧
      ∀ r' b' : Nat, b' < 8 → (r' < 0 ∨ r' = 0 ∧ b' < 4) →
        (drawPastEnd.readMem (drawPastEnd.indexBase + r')).getLsbD (7 - b') = true →
        ((drawPastEnd.readV 2).toNat + r') * 64 + ((drawPastEnd.readV 1).toNat + b') ≤ 2047) := by
  refine ⟨by decide, by decide, by decide, by decide, fun r' b' _ h _ => ?_⟩
  show (31 + r') * 64 + (60 + b') ≤ 2047
  omega

/-- Obligations.SpriteCellsGeometry: the largest sprite at the largest coordinates; the last place of a row, and one beyond. -/
theorem witness_SpriteCellsGeometry :
    (List.replicate 15 0xFF#8).length ≤ 15 ∧ 17478 ∈ spriteCells (List.replicate 15 0xFF#8) 255 255 ∧
    (31 + 1 - 1) * 64 + 56 + 7 = 2047 ∧ 2048 ∈ spriteCells [0x01#8] 57 31 := by decide

/-- Obligations.DrawTwiceRestores, both clauses: x = F with its register set back before the second draw; neither F. -/
theorem witness_DrawTwiceRestores :
    (∃ t u : State, exec (.drw 0xF 2 5) (State.reset.setV 0xF 3) = .next t ∧ u.fb = t.fb ∧
      u.mem = (State.reset.setV 0xF 3).mem ∧ u.i = (State.reset.setV 0xF 3).i ∧
      u.readV 0xF = (State.reset.setV 0xF 3).readV 0xF ∧ u.readV 2 = (State.reset.setV 0xF 3).readV 2) ∧
    ((1 : RegName) ≠ 0xF#4 ∧ (2 : RegName) ≠ 0xF#4 ∧ ∃ t, exec (.drw 1 2 5) State.reset = .next t) := by
  refine ⟨?_, by decide, by decide, _, rfl⟩
  obtain ⟨t, ht⟩ : ∃ t, exec (.drw 0xF 2 5) (State.reset.setV 0xF 3) = .next t := ⟨_, rfl⟩
  exact ⟨t, { State.reset.setV 0xF 3 with fb := t.fb }, ht, rfl, rfl, rfl, rfl, rfl⟩

/-- Obligations.StepKeepsInvariant and Obligations.SchedulesKeepInvariant. -/
theorem witness_StepKeepsInvariant : Inv (ready 0x6005) ∧ ∃ t, step (ready 0x6005) = .next t := ⟨by decide, _, rfl⟩

/-- Obligations.SoundTimerIsNotRead, both clauses. -/
theorem witness_SoundTimerIsNotRead : (∃ t, step (ready 0x00E0) = .next t) ∧ ∃ f, step State.reset = .fault f :=
  ⟨⟨_, rfl⟩, _, rfl⟩

/-- Obligations.StaleSlotsAreNotRead, both clauses: one address held, the other fifteen slots different. -/
theorem witness_StaleSlotsAreNotRead :
    (∀ k : Fin 16, k.val < ({ ready 0x00EE with sp := 1 } : State).sp.val →
      ((Vector.replicate 16 0xFFFF#16).set 0 0x0000)[k] = ({ ready 0x00EE with sp := 1 } : State).stack[k]) ∧
    (∃ t, step { ready 0x00EE with sp := 1 } = .next t) ∧ ∃ f, step { State.reset with sp := 1 } = .fault f :=
  ⟨by decide, ⟨_, rfl⟩, _, rfl⟩

/-- Obligations.CanonicalMemoryIsUnique: the same bytes written in two orders. -/
theorem witness_CanonicalMemoryIsUnique :
    Memory.wf (Memory.write (Memory.write [] 0x300 1) 0x301 2) ∧ Memory.wf (Memory.write (Memory.write [] 0x301 2) 0x300 1) ∧
    ∀ a, Memory.read (Memory.write (Memory.write [] 0x300 1) 0x301 2) a =
      Memory.read (Memory.write (Memory.write [] 0x301 2) 0x300 1) a := by
  refine ⟨by decide, by decide, fun a => ?_⟩
  have h : Memory.write (Memory.write [] 0x300 1) 0x301 2 = Memory.write (Memory.write [] 0x301 2) 0x300 1 := by decide
  rw [h]

/-- Obligations.LoadCopiesImage, each clause at its boundary. -/
theorem witness_LoadCopiesImage :
    (List.replicate 3584 0xAA#8).length ≤ 3584 ∧ 3584 < (List.replicate 3585 0xAA#8).length :=
  ⟨by rw [List.length_replicate], by rw [List.length_replicate]; decide⟩

/-- Obligations.TransactionsKeepTheirFrame: an address below the entry offset; a step that fetches an instruction, and one
that does not. -/
theorem witness_TransactionsKeepTheirFrame : 0x1FF < 0x200 ∧
    stepMayWrite (ready 0x6005) = [.redraw, .v, .pc] ∧ stepMayWrite State.reset = [.redraw] := by decide

end Sys2Proof.Tests
end

section
/-! Encoding: the words the source prints (R100). -/

namespace Sys2Proof

/-- R90, R94: two bytes, high byte first, decode to the instruction that their word's fields select, and the bytes after
them are handed back. -/
theorem decodeBytes_of_select {hi lo : Byte} {i : Instr} (rest : List Byte)
    (h : select (fieldsOf (wordOfBytes hi lo)) = some i) : decodeBytes (hi :: lo :: rest) = .ok (i, rest) := by
  simp only [decodeBytes, decode_eq_ok.2 h]

/-- Settles O1: the fields of each word are evaluated, and its bytes decode to what the fields of their word select. -/
theorem sourceWordsDecode : Obligations.SourceWordsDecode := by
  unfold Obligations.SourceWordsDecode
  refine ⟨?ld6005, ?ld6103, ?add8014⟩
  case ld6005 => exact ⟨rfl, rfl, rfl, decodeBytes_of_select [] rfl⟩
  case ld6103 => exact ⟨rfl, rfl, rfl, decodeBytes_of_select [] rfl⟩
  case add8014 => exact ⟨rfl, rfl, rfl, rfl, decodeBytes_of_select [] rfl⟩

end Sys2Proof
end

section
/-! The step engine: REDRAW after a step (R121, R129). -/

open Sys2Proof.Safety

namespace Sys2Proof.Machine

/-- R121: REDRAW plays no part in the fetch. -/
@[simp] theorem fetchInstr_setRedraw (s : State) (b : Bool) : fetchInstr (s.setRedraw b) = fetchInstr s :=
  fetchInstr_congr rfl rfl

/-- R205: a register load leaves REDRAW. -/
@[simp] theorem State.loadRegs_redraw (s : State) (base count : Nat) : (s.loadRegs base count).redraw = s.redraw := by
  rw [State.loadRegs_eq]

/-- The rows of Table S that list REDRAW (R20) are those of the two display instructions (R140, R141). -/
theorem redraw_mem_mayWrite {i : Instr} : .redraw ∈ mayWrite i ↔ i = .cls ∨ ∃ x y n, i = .drw x y n := by
  cases i <;> simp [mayWrite]

/-- What an outcome may be that leaves REDRAW at `b`: a fault, or a next state with that REDRAW; never a refusal. -/
def LeavesRedraw (b : Bool) (r : Result) : Prop := (∃ f, r = .fault f) ∨ ∃ t, r = .next t ∧ t.redraw = b

theorem leavesRedraw_fault (b : Bool) (f : Fault) : LeavesRedraw b (.fault f) := .inl ⟨f, rfl⟩

theorem leavesRedraw_next {b : Bool} {t : State} (h : t.redraw = b) : LeavesRedraw b (.next t) := .inr ⟨t, rfl, h⟩

/-- R164, R165: a skip on a key leaves REDRAW. -/
theorem skipOnKey_leavesRedraw (wanted : Bool) (k : Byte) (w : Word) (s : State) :
    LeavesRedraw s.redraw (skipOnKey wanted k w s) := by
  by_cases hk : 15 < k.toNat
  · rw [skipOnKey_above hk]
    exact leavesRedraw_fault _ _
  · rw [skipOnKey_index (by omega)]
    exact leavesRedraw_next rfl

/-- R152: a call leaves REDRAW. -/
theorem execCall_leavesRedraw (nnn : Addr) (s : State) : LeavesRedraw s.redraw (execCall nnn s) := by
  unfold execCall
  split
  · exact leavesRedraw_fault _ _
  · next t ht =>
    obtain ⟨-, rfl⟩ := State.pushReturn_eq_some.1 ht
    exact leavesRedraw_next rfl

/-- R153: a return leaves REDRAW. -/
theorem execRet_leavesRedraw (s : State) : LeavesRedraw s.redraw (execRet s) := by
  unfold execRet
  split
  · exact leavesRedraw_fault _ _
  · next a t ht =>
    obtain ⟨-, -, rfl⟩ := State.popReturn_eq_some.1 ht
    exact leavesRedraw_next rfl

/-- R141: a draw that completes sets REDRAW. -/
theorem execDrw_leavesRedraw (x y : RegName) (n : Nibble) (s : State) : LeavesRedraw true (execDrw x y n s) := by
  unfold execDrw
  split
  · exact leavesRedraw_fault _ _
  · split
    exacts [leavesRedraw_fault _ _, leavesRedraw_next rfl]

/-- R203: storing the digits leaves REDRAW. -/
theorem execLdB_leavesRedraw (x : RegName) (s : State) : LeavesRedraw s.redraw (execLdB x s) := by
  unfold execLdB
  split
  exacts [leavesRedraw_fault _ _, leavesRedraw_next rfl]

/-- R204: a register dump leaves REDRAW. -/
theorem execLdMemVx_leavesRedraw (x : RegName) (s : State) : LeavesRedraw s.redraw (execLdMemVx x s) := by
  unfold execLdMemVx
  split
  exacts [leavesRedraw_fault _ _, leavesRedraw_next rfl]

/-- R205: a register load that completes leaves REDRAW. -/
theorem execLdVxMem_leavesRedraw (x : RegName) (s : State) : LeavesRedraw s.redraw (execLdVxMem x s) := by
  unfold execLdVxMem
  split
  exacts [leavesRedraw_fault _ _, leavesRedraw_next (s.loadRegs_redraw _ _)]

/-- R230: the key wait leaves REDRAW, blocked or not. -/
theorem execLdVxK_leavesRedraw (x : RegName) (s : State) : LeavesRedraw s.redraw (execLdVxK x s) := by
  unfold execLdVxK
  split
  exacts [leavesRedraw_next rfl, leavesRedraw_next rfl]

/-- R129: an instruction faults, or REDRAW is 1 after it when Table S lists REDRAW for it and as before otherwise. The last
arm is of the instructions that complete from every state. -/
theorem exec_leavesRedraw (i : Instr) (s : State) :
    LeavesRedraw (decide (.redraw ∈ mayWrite i) || s.redraw) (exec i s) := by
  cases i with
  | ret => exact execRet_leavesRedraw s
  | call nnn => exact execCall_leavesRedraw nnn s
  | drw x y n => exact execDrw_leavesRedraw x y n s
  | skp x => exact skipOnKey_leavesRedraw _ _ _ s
  | sknp x => exact skipOnKey_leavesRedraw _ _ _ s
  | ldVxK x => exact execLdVxK_leavesRedraw x s
  | ldB x => exact execLdB_leavesRedraw x s
  | ldMemVx x => exact execLdMemVx_leavesRedraw x s
  | ldVxMem x => exact execLdVxMem_leavesRedraw x s
  | _ => exact leavesRedraw_next rfl

/-- R126, R250: the transaction of a faulting step. -/
theorem hostStep_of_fault {s : State} {f : Fault} (h : step s = .fault f) :
    hostStep s = (s.setRedraw false, .fault f) := by
  simp [hostStep, h]

/-- R125: the transaction of a step that answers a next state. -/
theorem hostStep_of_next {s t : State} (h : step s = .next t) :
    hostStep s = (t, if s.awaitsKey then .awaitingKeyInput else .running) := by
  simp [hostStep, h]

/-- R231: a step awaits a key only with an FX0A, which does not write REDRAW. -/
theorem State.awaitsKey_eq_false_of_redraw {s : State} {i : Instr} (hf : fetchInstr s = .ok i)
    (hi : .redraw ∈ mayWrite i) : s.awaitsKey = false := by
  rcases redraw_mem_mayWrite.1 hi with rfl | ⟨x, y, n, rfl⟩ <;> simp [State.awaitsKey, hf]

/-- R125, R129: after a step that fetched `i`, REDRAW is 1 exactly when `i` completed and Table S lists REDRAW for it. -/
theorem hostStep_redraw_of_fetch {s : State} {i : Instr} (hf : fetchInstr s = .ok i) :
    (hostStep s).1.redraw = true ↔ (hostStep s).2 = .running ∧ .redraw ∈ mayWrite i := by
  have hf' : fetchInstr s.beginStep = .ok i := by simpa using hf
  rcases exec_leavesRedraw i s.beginStep with ⟨f, hx⟩ | ⟨t, hx, hr⟩
  · rw [hostStep_of_fault (step_eq_fault.2 (.inr ⟨i, hf', hx⟩))]
    simp
  · rw [hostStep_of_next (step_eq_next.2 ⟨i, hf', hx⟩)]
    have hr : t.redraw = true ↔ .redraw ∈ mayWrite i := by simp [hr]
    refine ⟨fun ht => ⟨?_, hr.1 ht⟩, fun ⟨_, hi⟩ => hr.2 hi⟩
    simp [State.awaitsKey_eq_false_of_redraw hf (hr.1 ht)]

/-- Settles O13: a step that fetches no instruction faults with REDRAW cleared; one that fetches `i` leaves REDRAW as
Table S lists it for `i`. -/
theorem redrawExactlyAfterDisplay : Obligations.RedrawExactlyAfterDisplay := by
  intro s
  cases hf : fetchInstr s with
  | error f =>
    rw [hostStep_of_fault (step_eq_fault.2 (.inl (by simpa using hf)))]
    simp
  | ok i =>
    rw [hostStep_redraw_of_fetch hf, redraw_mem_mayWrite]
    simp

end Sys2Proof.Machine
end

section
/-! Constants and assignment: an instruction whose whole effect is one register and PC + 2 (R170). -/

open Sys2Proof.Safety

namespace Sys2Proof.Machine

/-- R20: setting a register and PC leaves every other piece of state. -/
theorem sameBut_setV_setPc (x : RegName) (b : Byte) (w : Word) (s : State) :
    sameBut [.v, .pc] s ((s.setV x b).setPc w) := by
  intro p hp
  cases p with
  | v => simp at hp
  | pc => simp at hp
  | _ => simp [Part.same]

/-- R21, R124: an instruction whose meaning is `writeReg` changes that register and moves PC by 2, and does no more. -/
theorem writesOnly_of_writeReg {i : Instr} {x : RegName} {b : Byte} {s : State} (h : exec i s = writeReg x b s) :
    writesOnly i s x b := by
  refine ⟨(s.setV x b).setPc (s.pc + 2), ?completes, ?registers, rfl, sameBut_setV_setPc x b _ s⟩
  case completes => rw [h, writeReg_eq]
  case registers =>
    intro r
    rw [State.setPc_readV, State.readV_setV]

/-- R170: the meaning of 6XNN. -/
theorem exec_ldImm (x : RegName) (kk : Byte) (s : State) : exec (.ldImm x kk) s = writeReg x kk s := rfl

/-- Settles O19: 6XNN is format XI with op 6, and its meaning is to write `kk` to Vx. -/
theorem setImmediateWritesRegister : Obligations.SetImmediateWritesRegister := by
  intro s x kk
  exact ⟨rfl, writesOnly_of_writeReg (exec_ldImm x kk s)⟩

end Sys2Proof.Machine
end

section
/-! Encoding: the decoder and the encoder are inverse to each other (R90 to R96), and the masks of Table OP decide what
a word decodes to (R95, R96). -/

namespace Sys2Proof

/-! ## From instruction to word and back -/

/-- Settles O2: each word is evaluated. -/
theorem familyWordsDecode : Obligations.FamilyWordsDecode :=
  ⟨rfl, rfl, rfl, rfl, rfl, rfl, rfl, rfl, rfl, rfl, rfl, rfl, rfl, rfl, rfl⟩

/-- R92, R94: the fields of an instruction's own word select it. The arms are the formats of Table FMT. -/
theorem select_fieldsOf_encode (i : Instr) : select (fieldsOf (encode i)) = some i := by
  cases i with
  | cls | ret => rfl
  | jp | call | ldI | jpV0 => rw [encode, fieldsOf_formatA]; rfl
  | seReg | ldReg | orReg | andReg | xorReg | addReg | sub | shr | subn | shl | sneReg | drw =>
    rw [encode, fieldsOf_formatXYN]; rfl
  | _ => rw [encode, fieldsOf_formatXI]; rfl

theorem decode_encode (i : Instr) : decode (encode i) = .ok i := decode_eq_ok.2 (select_fieldsOf_encode i)

/-- Settles O3: the fields of the word select the instruction, and the word's two bytes join to the word. -/
theorem decodeOfEncode : Obligations.DecodeOfEncode := by
  intro i rest
  refine ⟨decode_encode i, decodeBytes_of_select rest ?_⟩
  rw [wordOfBytes_bytes]
  exact select_fieldsOf_encode i

/-! ## From word to instruction and back -/

/-- R94: what is selected from a word with op = 0 has the word of format A. -/
theorem encode_of_selectZero {nnn : Addr} {i : Instr} (h : selectZero nnn = some i) : encode i = formatA 0x0 nnn := by
  unfold selectZero at h
  split_ifs at h <;> cases h <;> subst nnn <;> rfl

/-- R94: what is selected from a word with op = 8 has the word of format XY. -/
theorem encode_of_selectEight {x y : RegName} {n : Nibble} {i : Instr} (h : selectEight x y n = some i) :
    encode i = formatXYN 0x8 x y n := by
  unfold selectEight at h
  split_ifs at h <;> cases h <;> subst n <;> rfl

/-- R94: what is selected from a word with op = E has the word of format XS. -/
theorem encode_of_selectE {x : RegName} {kk : Byte} {i : Instr} (h : selectE x kk = some i) :
    encode i = formatXI 0xE x kk := by
  unfold selectE at h
  split_ifs at h <;> cases h <;> subst kk <;> rfl

/-- R94: what is selected from a word with op = F has the word of format XS. -/
theorem encode_of_selectF {x : RegName} {kk : Byte} {i : Instr} (h : selectF x kk = some i) :
    encode i = formatXI 0xF x kk := by
  unfold selectF at h
  split_ifs at h <;> cases h <;> subst kk <;> rfl

theorem formatA_of_op {w : Word} {op : Nibble} (h : (fieldsOf w).op = op) : formatA op (fieldsOf w).nnn = w :=
  h ▸ formatA_fieldsOf w

theorem formatXI_of_op {w : Word} {op : Nibble} (h : (fieldsOf w).op = op) :
    formatXI op (fieldsOf w).x (fieldsOf w).kk = w :=
  h ▸ formatXI_fieldsOf w

theorem formatXYN_of_op {w : Word} {op : Nibble} (h : (fieldsOf w).op = op) :
    formatXYN op (fieldsOf w).x (fieldsOf w).y (fieldsOf w).n = w :=
  h ▸ formatXYN_fieldsOf w

/-- Two nibbles and a fixed last one (5XY0, 9XY0) join to the word. -/
theorem formatXYN_of_op_of_n {w : Word} {op n : Nibble} (h : (fieldsOf w).op = op) (hn : (fieldsOf w).n = n) :
    formatXYN op (fieldsOf w).x (fieldsOf w).y n = w :=
  hn ▸ formatXYN_of_op h

/-- R94: the instruction that a word's fields select has that word. The arms are those of `select`, by op. -/
theorem encode_of_select {w : Word} {i : Instr} (h : select (fieldsOf w) = some i) : encode i = w := by
  unfold select at h
  split at h
  next hop => exact (encode_of_selectZero h).trans (formatA_of_op hop)
  next hop => cases h; exact formatA_of_op hop
  next hop => cases h; exact formatA_of_op hop
  next hop => cases h; exact formatXI_of_op hop
  next hop => cases h; exact formatXI_of_op hop
  next hop =>
    split_ifs at h with hn
    cases h; exact formatXYN_of_op_of_n hop hn
  next hop => cases h; exact formatXI_of_op hop
  next hop => cases h; exact formatXI_of_op hop
  next hop => exact (encode_of_selectEight h).trans (formatXYN_of_op hop)
  next hop =>
    split_ifs at h with hn
    cases h; exact formatXYN_of_op_of_n hop hn
  next hop => cases h; exact formatA_of_op hop
  next hop => cases h; exact formatA_of_op hop
  next hop => cases h; exact formatXI_of_op hop
  next hop => cases h; exact formatXYN_of_op hop
  next hop => exact (encode_of_selectE h).trans (formatXI_of_op hop)
  next hop => exact (encode_of_selectF h).trans (formatXI_of_op hop)
  next => cases h

/-- Settles O4: every branch of the selection keeps all the fields of the word. -/
theorem encodeOfDecode : Obligations.EncodeOfDecode :=
  fun _ _ h => encode_of_select (decode_eq_ok.1 h)

/-! ## Table OP -/

open Laws.EncodesItsRow in
/-- R95: the word of every instruction matches the instruction's row, and the row is in the table. The arms are the
masks of Table OP. -/
theorem rowOf_mem_and_matches (i : Instr) : rowOf i ∈ opTable ∧ matchesRow (rowOf i) (encode i) = true := by
  have h : Statement i := by
    cases i with
    | cls | ret => exact of_mask (row_mem rfl) rfl
    | jp | call | ldI | jpV0 => exact of_mask (row_mem rfl) (formatA_mask _ _)
    | seImm | sneImm | ldImm | addImm | rnd => exact of_mask (row_mem rfl) (formatXI_mask _ _ _)
    | drw => exact of_mask (row_mem rfl) (formatXYN_maskOp _ _ _ _)
    | seReg | ldReg | orReg | andReg | xorReg | addReg | sub | shr | subn | shl | sneReg =>
      exact of_mask (row_mem rfl) (formatXYN_mask _ _ _ _)
    | _ => exact of_mask (row_mem rfl) (formatXI_maskByte _ _ _)
  obtain ⟨hmem, hmatch, -⟩ := h
  exact ⟨hmem, hmatch⟩

/-- A part of a word that a mask keeps whole. -/
theorem extractLsb'_and_of_allOnes (w : Word) {m : Word} {start len : Nat}
    (h : m.extractLsb' start len = BitVec.allOnes len) : (w &&& m).extractLsb' start len = w.extractLsb' start len := by
  rw [BitVec.extractLsb'_and, h, BitVec.and_allOnes]

/-- R95: a part of a matching word that the row's mask keeps whole is the row's. -/
theorem extractLsb'_of_matchesRow {r : OpRow} {w : Word} (h : matchesRow r w = true) {start len : Nat}
    (hm : r.mask.extractLsb' start len = BitVec.allOnes len) :
    w.extractLsb' start len = r.pattern.extractLsb' start len := by
  rw [← extractLsb'_and_of_allOnes w hm, beq_iff_eq.1 h]

/-- R94, R95: a word that matches the row of some instruction selects an instruction of that row. The arms are the
masks of Table OP: each says which fields of the word the row fixes. -/
theorem select_of_matchesRow {i : Instr} {w : Word} (h : matchesRow (rowOf i) w = true) :
    ∃ j, select (fieldsOf w) = some j ∧ rowOf j = rowOf i := by
  cases i with
  | cls | ret =>
    simp only [rowOf] at h
    have hop : (fieldsOf w).op = _ := extractLsb'_of_matchesRow h rfl
    have hnnn : (fieldsOf w).nnn = _ := extractLsb'_of_matchesRow h rfl
    refine ⟨_, by rw [select, hop, hnnn]; rfl, ?_⟩
    rfl
  | seReg | ldReg | orReg | andReg | xorReg | addReg | sub | shr | subn | shl | sneReg =>
    simp only [rowOf] at h
    have hop : (fieldsOf w).op = _ := extractLsb'_of_matchesRow h rfl
    have hn : (fieldsOf w).n = _ := extractLsb'_of_matchesRow h rfl
    refine ⟨_, by rw [select, hop, hn]; rfl, ?_⟩
    rfl
  | skp | sknp | ldVxDt | ldVxK | ldDtVx | ldStVx | addI | ldF | ldB | ldMemVx | ldVxMem =>
    simp only [rowOf] at h
    have hop : (fieldsOf w).op = _ := extractLsb'_of_matchesRow h rfl
    have hkk : (fieldsOf w).kk = _ := extractLsb'_of_matchesRow h rfl
    refine ⟨_, by rw [select, hop, hkk]; rfl, ?_⟩
    rfl
  | _ =>
    simp only [rowOf] at h
    have hop : (fieldsOf w).op = _ := extractLsb'_of_matchesRow h rfl
    refine ⟨_, by rw [select, hop]; rfl, ?_⟩
    rfl

/-- One instruction of every row of Table OP, in the table's order. -/
def rowSamples : List Instr :=
  [.cls, .ret, .jp 0, .call 0, .seImm 0 0, .sneImm 0 0, .seReg 0 0, .ldImm 0 0, .addImm 0 0, .ldReg 0 0, .orReg 0 0,
    .andReg 0 0, .xorReg 0 0, .addReg 0 0, .sub 0 0, .shr 0 0, .subn 0 0, .shl 0 0, .sneReg 0 0, .ldI 0, .jpV0 0,
    .rnd 0 0, .drw 0 0 0, .skp 0, .sknp 0, .ldVxDt 0, .ldVxK 0, .ldDtVx 0, .ldStVx 0, .addI 0, .ldF 0, .ldB 0,
    .ldMemVx 0, .ldVxMem 0]

/-- R95: every row of Table OP is the row of some instruction. -/
theorem exists_rowOf_of_mem {r : OpRow} (h : r ∈ opTable) : ∃ i, rowOf i = r := by
  have hs : opTable = rowSamples.map rowOf := rfl
  rw [hs, List.mem_map] at h
  obtain ⟨i, -, hi⟩ := h
  exact ⟨i, hi⟩

/-- R95: a word matches a row of Table OP exactly when it decodes to an instruction of that row. -/
theorem matchesRow_iff_decode {r : OpRow} (hr : r ∈ opTable) (w : Word) :
    matchesRow r w = true ↔ ∃ i, decode w = .ok i ∧ rowOf i = r := by
  constructor
  · intro h
    obtain ⟨i, rfl⟩ := exists_rowOf_of_mem hr
    obtain ⟨j, hj, hrow⟩ := select_of_matchesRow h
    exact ⟨j, decode_eq_ok.2 hj, hrow⟩
  · rintro ⟨i, hi, rfl⟩
    rw [← encode_of_select (decode_eq_ok.1 hi)]
    exact (rowOf_mem_and_matches i).2

/-- R96: a word is invalid exactly when it matches no row of Table OP. -/
theorem decode_invalid_iff (w : Word) :
    decode w = .error (.invalidWord w) ↔ ∀ r ∈ opTable, matchesRow r w = false := by
  constructor
  · intro h r hr
    by_contra hm
    obtain ⟨i, hi, -⟩ := (matchesRow_iff_decode hr w).1 (by simpa using hm)
    rw [hi] at h
    cases h
  · intro h
    cases hd : decode w with
    | error e => rw [(decode_eq_error.1 hd).2]
    | ok i =>
      obtain ⟨hmem, -⟩ := rowOf_mem_and_matches i
      have hm : matchesRow (rowOf i) w = true := (matchesRow_iff_decode hmem w).2 ⟨i, hd, rfl⟩
      rw [h _ hmem] at hm
      cases hm

/-- Settles O5: a row matches exactly the words of its instructions, and every instruction has a row. -/
theorem tableDecidesDecoding : Obligations.TableDecidesDecoding :=
  ⟨fun w _ hr => matchesRow_iff_decode hr w, decode_invalid_iff⟩

end Sys2Proof
end

section
/-! What an instruction answers, in one form: the fault that stops it, if any, or else the state with the instruction's
writes and the PC of Table PCU. Every statement about all instructions is proved of `faultOf` and `effect`; `exec_eq`
ties the two to the model's `exec`. -/

open Sys2Proof.Safety

namespace Sys2Proof.Machine

/-- R164, R165, R247: the fault of a skip on a key. -/
def keyFault (x : RegName) (w : Word) (s : State) : Option Fault :=
  if 15 < (s.readV x).toNat then some (.keyIndexFault (s.readV x) s.pc w) else none

/-- R243: the fault of an access to `len` bytes at I. -/
def blockFault (len : Nat) (w : Word) (s : State) : Option Fault :=
  (badAddress s.indexBase len).map fun a => .memoryFault a s.pc (some w)

/-- R244: the fault of a draw whose rows are in memory. -/
def cellFault (cells : List Nat) (w : Word) (s : State) : Option Fault :=
  (badCell cells).map fun c => .framebufferFault c s.pc w

/-- The fault of an instruction (Table FLT, R241; order R249), if it has one. -/
def faultOf (i : Instr) (s : State) : Option Fault :=
  match i with
  | .ret => if s.sp.val = 0 then some (.stackUnderflow s.pc (encode i)) else none
  | .call _ => if s.sp.val = 16 then some (.stackOverflow s.pc (encode i)) else none
  | .skp x | .sknp x => keyFault x (encode i) s
  | .drw x y n => (blockFault n.toNat (encode i) s).or (cellFault (s.drawList x y n) (encode i) s)
  | .ldB _ => blockFault 3 (encode i) s
  | .ldMemVx x | .ldVxMem x => blockFault (regCount x) (encode i) s
  | _ => none

/-- R141: what a draw of `cells` writes but for PC. -/
def drawEffect (s : State) (cells : List Nat) : State :=
  ((s.setFb (fbDraw s.fb false cells).1).setV flagReg (flagByte (fbDraw s.fb false cells).2)).setRedraw true

/-- R152: a return address pushed; the slots are as they are when SP = 16. -/
def State.pushed (s : State) (a : Word) : State :=
  { s with
    stack := if h : s.sp.val < 16 then s.stack.set s.sp.val a else s.stack
    sp := ⟨min (s.sp.val + 1) 16, by omega⟩ }

/-- R153: a return address popped; its slot keeps its value. -/
def State.popped (s : State) : State := { s with sp := ⟨s.sp.val - 1, by omega⟩ }

/-- What an instruction that does not fault writes but for PC (Table S, R20). -/
def effect (i : Instr) (s : State) : State :=
  match i with
  | .cls => (s.setFb fbClear).setRedraw true
  | .ret => s.popped
  | .call _ => s.pushed (s.pc + 2)
  | .jp _ | .jpV0 _ => s
  | .seImm _ _ | .sneImm _ _ | .seReg _ _ | .sneReg _ _ | .skp _ | .sknp _ => s
  | .ldImm x kk => s.setV x kk
  | .addImm x kk => s.setV x (s.readV x + kk)
  | .ldReg x y => s.setV x (s.readV y)
  | .orReg x y => s.setV x (s.readV x ||| s.readV y)
  | .andReg x y => s.setV x (s.readV x &&& s.readV y)
  | .xorReg x y => s.setV x (s.readV x ^^^ s.readV y)
  | .addReg x y => (s.setV flagReg (carryFlag (s.readV x) (s.readV y))).setV x (s.readV x + s.readV y)
  | .sub x y => (s.setV flagReg (notBorrowFlag (s.readV x) (s.readV y))).setV x (s.readV x - s.readV y)
  | .subn x y => (s.setV flagReg (notBorrowFlag (s.readV y) (s.readV x))).setV x (s.readV y - s.readV x)
  | .shr x _ => (s.setV flagReg (lowBitFlag (s.readV x))).setV x (s.readV x >>> 1)
  | .shl x _ => (s.setV flagReg (highBitFlag (s.readV x))).setV x (s.readV x <<< 1)
  | .ldI nnn => s.setI (addrWord nnn)
  | .rnd x kk => s.countRnd.setV x (Config.rnd s.rndCount &&& kk)
  | .drw x y n => drawEffect s (s.drawList x y n)
  | .ldVxDt x => s.setV x s.dt
  | .ldVxK x => { s with v := s.firstKey.elim s.v fun k => s.v.set x.toNat (BitVec.ofNat 8 k) }
  | .ldDtVx x => s.setDt (s.readV x)
  | .ldStVx x => s.setSt (s.readV x)
  | .addI x =>
    (s.setV flagReg (rangeFlag (s.indexBase + (s.readV x).toNat))).setI (s.i + byteWord (s.readV x))
  | .ldF x => s.setI (glyphAddress (s.readV x))
  | .ldB x => s.setMem (Memory.writeBytes s.mem s.indexBase (bcdDigits (s.readV x)))
  | .ldMemVx x =>
    (s.setMem (Memory.writeBytes s.mem s.indexBase (s.firstRegs (regCount x)))).setI
      (s.i + BitVec.ofNat 16 (regCount x))
  | .ldVxMem x => { s with v := (s.loadRegs s.indexBase (regCount x)).v, i := s.i + BitVec.ofNat 16 (regCount x) }

/-- The state after an instruction that does not fault (R20, R124). -/
def stateAfter (i : Instr) (s : State) : State := (effect i s).setPc (pcAfter i s)

/-! ## The parts agree with the model -/

/-- R150, R152: the address operand as Table PCU gives it. -/
theorem addrWord_eq (nnn : Addr) : addrWord nnn = BitVec.ofNat 16 nnn.toNat := by
  rw [← toNat_addrWord, BitVec.ofNat_toNat, BitVec.setWidth_eq]

/-- R151: the sum of JP V0 as Table PCU gives it. -/
theorem addrWord_add_byteWord (nnn : Addr) (b : Byte) :
    addrWord nnn + byteWord b = BitVec.ofNat 16 (nnn.toNat + b.toNat) :=
  BitVec.eq_of_toNat_eq (by rw [BitVec.toNat_add, toNat_addrWord, toNat_byteWord, BitVec.toNat_ofNat])

/-- R152: a call is a StackOverflow, or the push and the jump. -/
theorem execCall_eq (nnn : Addr) (s : State) :
    execCall nnn s = (faultOf (.call nnn) s).elim (.next (stateAfter (.call nnn) s)) .fault := by
  cases hp : s.pushReturn (s.pc + 2) with
  | none => simp only [execCall, hp, faultOf, State.pushReturn_eq_none.1 hp, if_true, raise_eq, Option.elim_some]
  | some t =>
    obtain ⟨hsp, rfl⟩ := State.pushReturn_eq_some.1 hp
    have hmin : min (s.sp.val + 1) 16 = s.sp.val + 1 := by omega
    simp only [execCall, hp, faultOf, hsp.ne, if_false, Option.elim_none, stateAfter, effect, pcAfter, addrWord_eq,
      State.pushed, hsp, dif_pos, hmin]

/-- R153: a return is a StackUnderflow, or the pop to the slot that Table PCU names. -/
theorem execRet_eq (s : State) : execRet s = (faultOf .ret s).elim (.next (stateAfter .ret s)) .fault := by
  cases hp : s.popReturn with
  | none => simp [execRet, hp, faultOf, State.popReturn_eq_none.1 hp]
  | some p =>
    obtain ⟨a, t⟩ := p
    obtain ⟨hsp, rfl, rfl⟩ := State.popReturn_eq_some.1 hp
    have hlt : s.sp.val - 1 < 16 := by omega
    simp [execRet, hp, faultOf, hsp.ne', stateAfter, effect, pcAfter, State.popped, Vector.getElem?_eq_getElem hlt]

/-- R164, R165: a skip on a key is its fault, or the skip by the key of the register's low nibble. -/
theorem skipOnKey_eq (wanted : Bool) (x : RegName) (w : Word) (s : State) :
    skipOnKey wanted (s.readV x) w s =
      (keyFault x w s).elim (.next (s.skipIf (s.readKey ((s.readV x).setWidth 4) == wanted))) .fault := by
  by_cases h : 15 < (s.readV x).toNat
  · simp [skipOnKey_above h, keyFault, h]
  · simp [skipOnKey_index (Nat.le_of_not_lt h), keyFault, h]

/-- R141, R249: a draw is a fault of its rows, or else of its cells, or the drawing. -/
theorem execDrw_eq (x y : RegName) (n : Nibble) (s : State) :
    execDrw x y n s = (faultOf (.drw x y n) s).elim (.next (stateAfter (.drw x y n) s)) .fault := by
  cases ha : badAddress s.indexBase n.toNat with
  | some a => simp [execDrw, faultOf, blockFault, ha]
  | none =>
    cases hc : badCell (s.drawList x y n) with
    | some c => simp [execDrw, faultOf, blockFault, ha, cellFault, hc]
    | none =>
      simp [execDrw, faultOf, blockFault, ha, cellFault, hc, stateAfter, effect, pcAfter, drawCells, drawEffect]

/-- R230: a key is found exactly when some flag is set. -/
theorem State.isSome_firstKey (s : State) : s.firstKey.isSome = s.key.toList.contains true := by
  rw [State.firstKey, List.findIdx?_isSome, Bool.eq_iff_iff]
  simp only [List.any_eq_true, List.contains_iff_mem, id, exists_eq_right]

/-- R230: the key wait stores the key found, or leaves the state as it is. -/
theorem execLdVxK_eq (x : RegName) (s : State) : execLdVxK x s = .next (stateAfter (.ldVxK x) s) := by
  have hpc : pcAfter (.ldVxK x) s = if s.firstKey.isSome then s.pc + 2 else s.pc := by
    rw [State.isSome_firstKey]
    rfl
  cases hk : s.firstKey with
  | none =>
    simp only [execLdVxK, stateAfter, hpc, effect, hk]
    rfl
  | some k =>
    simp only [execLdVxK, stateAfter, hpc, effect, hk]
    rfl

/-- An instruction answers its fault, or else the state after it: never a refusal. The last arm is of the instructions
that complete from every state with PC + 2. -/
theorem exec_eq (i : Instr) (s : State) : exec i s = (faultOf i s).elim (.next (stateAfter i s)) .fault := by
  cases i with
  | ret => exact execRet_eq s
  | call nnn => exact execCall_eq nnn s
  | skp x => simp [exec, execSkp, skipOnKey_eq, faultOf, stateAfter, effect, pcAfter]
  | sknp x =>
    cases hk : s.readKey ((s.readV x).setWidth 4) <;>
      simp [exec, execSknp, skipOnKey_eq, faultOf, stateAfter, effect, pcAfter, hk]
  | drw x y n => exact execDrw_eq x y n s
  | ldVxK x => exact execLdVxK_eq x s
  | ldB x =>
    cases ha : badAddress s.indexBase 3 <;> simp [exec, execLdB, faultOf, blockFault, ha, stateAfter, effect, pcAfter]
  | ldMemVx x =>
    cases ha : badAddress s.indexBase (regCount x) <;>
      simp [exec, execLdMemVx, faultOf, blockFault, ha, stateAfter, effect, pcAfter]
  | ldVxMem x =>
    cases ha : badAddress s.indexBase (regCount x) with
    | some a => simp [exec, execLdVxMem, faultOf, blockFault, ha]
    | none =>
      simp only [exec, execLdVxMem, faultOf, blockFault, ha]
      rw [State.loadRegs_eq]
      rfl
  | seImm x kk | sneImm x kk =>
    by_cases h : s.readV x = kk <;> simp [exec, execSeImm, execSneImm, faultOf, stateAfter, effect, pcAfter, h]
  | seReg x y | sneReg x y =>
    by_cases h : s.readV x = s.readV y <;>
      simp [exec, execSeReg, execSneReg, faultOf, stateAfter, effect, pcAfter, h]
  | jp nnn => exact congrArg (fun w => Host.Outcome.next (s.setPc w)) (addrWord_eq nnn)
  | jpV0 nnn => exact congrArg (fun w => Host.Outcome.next (s.setPc w)) (addrWord_add_byteWord nnn (s.readV offsetReg))
  | _ => rfl

/-- An instruction completes exactly when it has no fault, with the state after it. -/
theorem exec_eq_next {i : Instr} {s t : State} : exec i s = .next t ↔ faultOf i s = none ∧ t = stateAfter i s := by
  rw [exec_eq]
  cases faultOf i s <;> simp [eq_comm]

/-- An instruction ends in its fault. -/
theorem exec_eq_fault {i : Instr} {s : State} {f : Fault} : exec i s = .fault f ↔ faultOf i s = some f := by
  rw [exec_eq]
  cases faultOf i s <;> simp

/-- An instruction that has no fault completes. -/
theorem exec_of_faultOf_eq_none {i : Instr} {s : State} (h : faultOf i s = none) :
    exec i s = .next (stateAfter i s) :=
  exec_eq_next.2 ⟨h, rfl⟩

/-- A block access faults exactly when it passes 4095 (R62, R243). -/
theorem blockFault_eq_none {len : Nat} {w : Word} {s : State} :
    blockFault len w s = none ↔ len = 0 ∨ s.indexBase + len ≤ 4096 := by
  rw [blockFault, Option.map_eq_none_iff, badAddress_eq_none]

end Sys2Proof.Machine
end

section
/-! The frame of every instruction: what it leaves unchanged (Table S of R20, R22, R124). -/

open Sys2Proof.Safety

namespace Sys2Proof.Machine

/-- A frame may be weakened. -/
theorem sameBut_mono {l l' : List Part} {s t : State} (h : sameBut l s t) (hl : l ⊆ l') : sameBut l' s t :=
  fun p hp => h p fun hm => hp (hl hm)

/-- Two changes with one frame. -/
theorem sameBut_trans {l : List Part} {s t u : State} (h : sameBut l s t) (h' : sameBut l t u) : sameBut l s u := by
  intro p hp
  have h1 := h p hp
  have h2 := h' p hp
  cases p with
  | mem => exact fun a => (h2 a).trans (h1 a)
  | v => exact fun r => (h2 r).trans (h1 r)
  | _ => exact h2.trans h1

/-- R121, R126: clearing REDRAW changes REDRAW only. -/
theorem sameBut_setRedraw (s : State) (b : Bool) : sameBut [.redraw] s (s.setRedraw b) := by
  intro p hp
  cases p with
  | redraw => simp at hp
  | mem | v => exact fun _ => rfl
  | _ => rfl

/-- Table S of R20, by its rows: the instructions that may write a piece of state are those listed for it, and every
other one leaves it. -/
theorem sameBut_stateAfter (i : Instr) (s : State) : sameBut (mayWrite i) s (stateAfter i s) := by
  intro p hp
  cases p with
  | mem =>
    cases i with
    | ldB | ldMemVx => simp [mayWrite] at hp
    | _ => exact fun _ => rfl
  | v =>
    cases i with
    | cls | ret | jp | jpV0 | call | seImm | sneImm | seReg | sneReg | skp | sknp | ldDtVx | ldStVx | ldI | ldF | ldB
    | ldMemVx => exact fun _ => rfl
    | _ => simp [mayWrite] at hp
  | i =>
    cases i with
    | ldI | ldF | addI | ldMemVx | ldVxMem => simp [mayWrite] at hp
    | _ => rfl
  | pc => cases i <;> simp [mayWrite] at hp
  | stack =>
    cases i with
    | call => simp [mayWrite] at hp
    | _ => rfl
  | sp =>
    cases i with
    | call | ret => simp [mayWrite] at hp
    | _ => rfl
  | dt =>
    cases i with
    | ldDtVx => simp [mayWrite] at hp
    | _ => rfl
  | st =>
    cases i with
    | ldStVx => simp [mayWrite] at hp
    | _ => rfl
  | fb | redraw =>
    cases i with
    | cls | drw => simp [mayWrite] at hp
    | _ => rfl
  | key => cases i <;> rfl
  | rnd =>
    cases i with
    | rnd => simp [mayWrite] at hp
    | _ => rfl

/-- Settles O16: the state after an instruction that has no fault keeps the frame of the table. -/
theorem writesFollowTableS : Obligations.WritesFollowTableS := by
  intro i s t h
  obtain ⟨-, rfl⟩ := exec_eq_next.1 h
  exact sameBut_stateAfter i s

/-- Settles O15: the state after an instruction has the PC of the table. -/
theorem pcFollowsTablePcu : Obligations.PcFollowsTablePcu := by
  intro i s t h
  obtain ⟨-, rfl⟩ := exec_eq_next.1 h
  rfl

@[simp] theorem stateAfter_pc (i : Instr) (s : State) : (stateAfter i s).pc = pcAfter i s := rfl

@[simp] theorem stateAfter_readV (i : Instr) (s : State) (r : RegName) :
    (stateAfter i s).readV r = (effect i s).readV r := rfl

@[simp] theorem stateAfter_readMem (i : Instr) (s : State) (a : Nat) :
    (stateAfter i s).readMem a = (effect i s).readMem a := rfl

/-- R205: the registers after a register load. -/
theorem readV_effect_ldVxMem (x : RegName) (s : State) (r : RegName) :
    (effect (.ldVxMem x) s).readV r = if r.toNat ≤ x.toNat then s.readMem (s.indexBase + r.toNat) else s.readV r := by
  refine (s.readV_loadRegs s.indexBase (count := regCount x) x.isLt r).trans ?_
  simp only [regCount, Nat.lt_succ_iff]

/-- R230: the registers after a key wait. -/
theorem readV_effect_ldVxK (x : RegName) (s : State) (r : RegName) :
    (effect (.ldVxK x) s).readV r =
      s.firstKey.elim (s.readV r) fun k => if r = x then BitVec.ofNat 8 k else s.readV r := by
  cases hk : s.firstKey with
  | none => simp [effect, hk, State.readV]
  | some k =>
    rw [Option.elim_some, ← State.readV_setV]
    simp [effect, hk, State.readV]

/-- R22: the registers an instruction may write are those it names; the arms are the shapes of `effect` on registers. -/
theorem readV_effect_of_mayWriteReg_eq_false {i : Instr} {r : RegName} (h : mayWriteReg i r = false) (s : State) :
    (effect i s).readV r = s.readV r := by
  cases i with
  | ldImm x | addImm x | ldReg x | orReg x | andReg x | xorReg x | rnd x | ldVxDt x =>
    have hx : r ≠ x := by simpa [mayWriteReg] using h
    simp [effect, hx]
  | addReg x | sub x | subn x | shr x | shl x =>
    obtain ⟨hx, hf⟩ : r ≠ x ∧ r ≠ flagReg := by simpa [mayWriteReg, flagReg] using h
    simp [effect, hx, hf]
  | drw | addI =>
    have hf : r ≠ flagReg := by simpa [mayWriteReg, flagReg] using h
    simp [effect, drawEffect, hf]
  | ldVxMem x =>
    have hx : x.toNat < r.toNat := by simpa [mayWriteReg] using h
    rw [readV_effect_ldVxMem, if_neg (by omega)]
  | ldVxK x =>
    have hx : r ≠ x := by simpa [mayWriteReg] using h
    rw [readV_effect_ldVxK]
    cases s.firstKey <;> simp [hx]
  | _ => rfl

/-- Settles O17: no other register is written by the instruction's effect. -/
theorem registersWrittenAreNamed : Obligations.RegistersWrittenAreNamed := by
  intro i s t r h hr
  obtain ⟨-, rfl⟩ := exec_eq_next.1 h
  exact readV_effect_of_mayWriteReg_eq_false hr s

end Sys2Proof.Machine
end

section
/-! The step: what it answers, and what a fault depends on and reports (R121 to R127, R241). -/

open Sys2Proof.Safety

namespace Sys2Proof.Machine

/-! ## The outcomes of a fetch and of a step -/

/-- R122, R123, R242: a fetch fails above 4094, or with a word that decodes to nothing. -/
theorem fetchInstr_eq_error {s : State} {f : Fault} : fetchInstr s = .error f ↔
    (4094 < s.pc.toNat ∧ f = .memoryFault (max s.pc.toNat 4096) s.pc none) ∨
    ∃ w e, fetchWord s = .ok w ∧ decode w = .error e ∧ f = .invalidInstruction w s.pc := by
  unfold fetchInstr
  cases hw : fetchWord s with
  | error g =>
    obtain ⟨hpc, rfl⟩ := fetchWord_eq_error.1 hw
    simp [hpc, eq_comm]
  | ok w =>
    obtain ⟨hpc, -⟩ := fetchWord_eq_ok.1 hw
    cases hd : decode w <;> simp [hd, Nat.not_lt.2 hpc, eq_comm]

/-- R121: a step that fetches an instruction executes it on the state with REDRAW cleared. -/
theorem step_of_fetchInstr_eq_ok {s : State} {i : Instr} (h : fetchInstr s = .ok i) :
    step s = exec i (s.setRedraw false) := by
  simp [step, h]

/-- R122, R242: a step that fetches none faults. -/
theorem step_of_fetchInstr_eq_error {s : State} {f : Fault} (h : fetchInstr s = .error f) : step s = .fault f := by
  simp [step, h]

/-- A step answers a next state exactly when it fetches an instruction that has no fault. -/
theorem step_eq_next_iff {s t : State} : step s = .next t ↔
    ∃ i, fetchInstr s = .ok i ∧ faultOf i (s.setRedraw false) = none ∧ t = stateAfter i (s.setRedraw false) := by
  simp only [step_eq_next, exec_eq_next, State.beginStep_eq, fetchInstr_setRedraw]

/-- A step faults exactly when it fetches no instruction, or one that has a fault. -/
theorem step_eq_fault_iff {s : State} {f : Fault} : step s = .fault f ↔
    fetchInstr s = .error f ∨ ∃ i, fetchInstr s = .ok i ∧ faultOf i (s.setRedraw false) = some f := by
  simp only [step_eq_fault, exec_eq_fault, State.beginStep_eq, fetchInstr_setRedraw]

/-- Settles O12: neither the fetch nor an instruction answers a refusal. -/
theorem stepNeverRefuses : Obligations.StepNeverRefuses := by
  intro s r h
  cases hf : fetchInstr s with
  | error f =>
    rw [step_of_fetchInstr_eq_error hf] at h
    cases h
  | ok i =>
    rw [step_of_fetchInstr_eq_ok hf, exec_eq] at h
    cases hx : faultOf i (s.setRedraw false) <;> simp [hx] at h

/-- A step faults or answers a next state. -/
theorem step_cases (s : State) : (∃ f, step s = .fault f) ∨ ∃ t, step s = .next t := by
  cases h : step s with
  | next t => exact .inr ⟨t, rfl⟩
  | fault f => exact .inl ⟨f, rfl⟩
  | refused r => exact absurd h (stepNeverRefuses s r)

/-- Settles O6: the fetch succeeds with the instruction that the word at PC decodes to. -/
theorem stepRunsDecodedInstruction : Obligations.StepRunsDecodedInstruction := by
  intro s i hpc hd
  exact step_of_fetchInstr_eq_ok (fetchInstr_eq_ok.2 ⟨hpc, hd⟩)

/-- Settles O7: the address reported is the greater of PC and 4096. -/
theorem fetchAbove4094Faults : Obligations.FetchAbove4094Faults := by
  intro s
  have hstep (hpc : 4094 < s.pc.toNat) : step s = .fault (.memoryFault (max s.pc.toNat 4096) s.pc none) :=
    step_of_fetchInstr_eq_error (fetchInstr_eq_error.2 (.inl ⟨hpc, rfl⟩))
  constructor
  · intro hpc
    rw [hstep (by omega), hpc]
    rfl
  · intro hpc
    rw [hstep (by omega), Nat.max_eq_left hpc]

/-- Settles O8: a word that matches no row does not decode. -/
theorem unmatchedWordFaults : Obligations.UnmatchedWordFaults := by
  intro s w hpc hw hrows
  have hd := (decode_invalid_iff w).2 hrows
  exact step_of_fetchInstr_eq_error (fetchInstr_eq_error.2 (.inr ⟨w, _, fetchWord_eq_ok.2 ⟨hpc, hw⟩, hd, rfl⟩))

/-! ## Faults -/

/-- Settles O9: the transaction of a faulting step clears REDRAW and does nothing else. -/
theorem faultingStepIsPrecise : Obligations.FaultingStepIsPrecise := by
  intro s f h
  rw [hostStep_of_fault h]
  exact ⟨rfl, rfl, sameBut_setRedraw s false⟩

/-- R127: the fault of an instruction depends on memory, PC, the registers, I and SP. -/
theorem faultOf_congr {s t : State} (hmem : t.mem = s.mem) (hpc : t.pc = s.pc) (hv : t.v = s.v) (hi : t.i = s.i)
    (hsp : t.sp = s.sp) (i : Instr) : faultOf i t = faultOf i s := by
  have hreg (r : RegName) : t.readV r = s.readV r := by simp only [State.readV, hv]
  cases i <;>
    simp only [faultOf, keyFault, blockFault, cellFault, State.drawList, State.indexBase, hreg, hmem, hpc, hi, hsp]

/-- R127: so does the fault of a step. -/
theorem step_eq_fault_congr {s t : State} {f : Fault} (h : step s = .fault f) (hmem : t.mem = s.mem) (hpc : t.pc = s.pc)
    (hv : t.v = s.v) (hi : t.i = s.i) (hsp : t.sp = s.sp) : step t = .fault f := by
  have hx (i : Instr) : faultOf i (t.setRedraw false) = faultOf i (s.setRedraw false) :=
    faultOf_congr hmem hpc hv hi hsp i
  simpa only [step_eq_fault_iff, fetchInstr_congr hpc hmem, hx] using h

/-- Settles O10: the state after a faulting step differs from the one before it in REDRAW only. -/
theorem faultsRepeat : Obligations.FaultsRepeat := by
  refine ⟨fun _ _ _ h hmem hpc hv hi hsp => step_eq_fault_congr h hmem hpc hv hi hsp, fun s f h => ?_⟩
  rw [hostStep_of_fault h]
  exact step_eq_fault_congr h rfl rfl rfl rfl rfl

/-- What Table FLT says of every fault of an instruction: it reports the PC and the word. -/
def Reports (pc w : Word) (f : Fault) : Prop := faultPc f = some pc ∧ faultWord f = some w

theorem reports_of_keyFault {x : RegName} {w : Word} {s : State} {f : Fault} (h : keyFault x w s = some f) :
    Reports s.pc w f := by
  obtain ⟨-, rfl⟩ : _ ∧ _ = f := by simpa [keyFault] using h
  exact ⟨rfl, rfl⟩

theorem reports_of_blockFault {len : Nat} {w : Word} {s : State} {f : Fault} (h : blockFault len w s = some f) :
    Reports s.pc w f := by
  obtain ⟨a, -, rfl⟩ := Option.map_eq_some_iff.1 h
  exact ⟨rfl, rfl⟩

theorem reports_of_cellFault {cells : List Nat} {w : Word} {s : State} {f : Fault} (h : cellFault cells w s = some f) :
    Reports s.pc w f := by
  obtain ⟨c, -, rfl⟩ := Option.map_eq_some_iff.1 h
  exact ⟨rfl, rfl⟩

/-- R241: the fault of an instruction reports PC and the instruction's word. -/
theorem reports_of_faultOf {i : Instr} {s : State} {f : Fault} (h : faultOf i s = some f) :
    Reports s.pc (encode i) f := by
  cases i with
  | ret | call =>
    obtain ⟨-, rfl⟩ : _ ∧ _ = f := by simpa [faultOf] using h
    exact ⟨rfl, rfl⟩
  | skp | sknp => exact reports_of_keyFault h
  | drw =>
    rcases Option.or_eq_some_iff.1 h with h | ⟨-, h⟩
    · exact reports_of_blockFault h
    · exact reports_of_cellFault h
  | ldB | ldMemVx | ldVxMem => exact reports_of_blockFault h
  | _ => cases h

/-- Settles O11: an instruction's own word is the fetched one, since decoding drops no bit of it. -/
theorem faultReportsPcAndWord : Obligations.FaultReportsPcAndWord := by
  intro s f h
  rcases step_eq_fault_iff.1 h with hf | ⟨i, hf, hx⟩
  · rcases fetchInstr_eq_error.1 hf with ⟨hpc, rfl⟩ | ⟨w, e, hw, -, rfl⟩
    · exact ⟨rfl, (if_neg (Nat.not_le.2 hpc)).symm⟩
    · obtain ⟨hpc, rfl⟩ := fetchWord_eq_ok.1 hw
      exact ⟨rfl, (if_pos hpc).symm⟩
  · obtain ⟨hpc, hd⟩ := fetchInstr_eq_ok.1 hf
    obtain ⟨hp, hw⟩ := reports_of_faultOf hx
    rw [if_pos hpc, ← encode_of_select (decode_eq_ok.1 hd)]
    exact ⟨hp, hw⟩

/-! ## What the step transaction changes -/

/-- R263: a step changes REDRAW and what the fetched instruction may write. -/
theorem sameBut_hostStep (s : State) : sameBut (stepMayWrite s) s (hostStep s).1 := by
  rcases step_cases s with ⟨f, h⟩ | ⟨t, h⟩
  · rw [hostStep_of_fault h]
    refine sameBut_mono (sameBut_setRedraw s false) ?_
    unfold stepMayWrite
    split <;> simp
  · rw [hostStep_of_next h]
    obtain ⟨i, hf, -, rfl⟩ := step_eq_next_iff.1 h
    have hw : stepMayWrite s = .redraw :: mayWrite i := by rw [stepMayWrite, hf]
    rw [hw]
    exact sameBut_trans (sameBut_mono (sameBut_setRedraw s false) (by simp))
      (sameBut_mono (sameBut_stateAfter i _) (List.subset_cons_self _ _))

/-- R128: the random count is written by a step that fetches RND only. -/
theorem rnd_mem_stepMayWrite {s : State} (h : .rnd ∈ stepMayWrite s) : ∃ x kk, fetchInstr s = .ok (.rnd x kk) := by
  unfold stepMayWrite at h
  split at h
  next i hf =>
    cases i with
    | rnd x kk => exact ⟨x, kk, hf⟩
    | _ => simp [mayWrite] at h
  next => simp at h

/-- Settles O14: RND counts one byte up, and the count is in the frame of every other step. -/
theorem onlyRndConsumes : Obligations.OnlyRndConsumes := by
  intro s
  constructor
  · rintro ⟨x, kk, hf⟩
    rw [hostStep_of_next (step_eq_next_iff.2 ⟨_, hf, rfl, rfl⟩)]
    rfl
  · intro h
    exact sameBut_hostStep s .rnd (fun hm => h (rnd_mem_stepMayWrite hm))

end Sys2Proof.Machine
end

section
/-! What no step reads: the sound timer (R26), and the stack slots at SP and above (R25). -/

open Sys2Proof.Safety

namespace Sys2Proof.Machine

/-- R205: the registers after a register load depend on memory and the registers. -/
theorem State.loadRegs_v_congr {s t : State} (hmem : t.mem = s.mem) (hv : t.v = s.v) (base count : Nat) :
    (t.loadRegs base count).v = (s.loadRegs base count).v := by
  induction count with
  | zero => exact hv
  | succ k ih => simp only [State.loadRegs, State.setV_v, ih, State.readMem, hmem]

/-! ## The sound timer -/

/-- R26: an instruction writes the same with another ST, but for ST. -/
theorem effect_setSt (i : Instr) (s : State) (b : Byte) : ∃ c, effect i (s.setSt b) = (effect i s).setSt c := by
  cases i with
  | ldStVx x => exact ⟨s.readV x, rfl⟩
  | ldVxMem x =>
    refine ⟨b, ?_⟩
    simp only [effect]
    rw [State.loadRegs_v_congr (State.setSt_mem s b) (State.setSt_v s b)]
    rfl
  | _ => exact ⟨b, rfl⟩

/-- R26, R124: PC does not depend on ST. -/
theorem pcAfter_setSt (i : Instr) (s : State) (b : Byte) : pcAfter i (s.setSt b) = pcAfter i s := by
  cases i <;> rfl

/-- R26: so does the state after it. -/
theorem stateAfter_setSt (i : Instr) (s : State) (b : Byte) :
    ∃ c, stateAfter i (s.setSt b) = (stateAfter i s).setSt c := by
  obtain ⟨c, hc⟩ := effect_setSt i s b
  refine ⟨c, ?_⟩
  rw [stateAfter, hc, pcAfter_setSt]
  rfl

/-- Settles O53: the fetch and the fault do not depend on ST, and the state after an instruction depends on it in ST
only. -/
theorem soundTimerIsNotRead : Obligations.SoundTimerIsNotRead := by
  intro s b
  refine ⟨fun t h => ?_, fun f h => step_eq_fault_congr h rfl rfl rfl rfl rfl⟩
  obtain ⟨i, hf, hx, rfl⟩ := step_eq_next_iff.1 h
  obtain ⟨c, hc⟩ := stateAfter_setSt i (s.setRedraw false) b
  refine ⟨c, step_eq_next_iff.2 ⟨i, ?fetch, ?fault, hc.symm⟩⟩
  case fetch => exact (fetchInstr_congr rfl rfl).trans hf
  case fault => exact (faultOf_congr rfl rfl rfl rfl rfl i).trans hx

/-! ## Stale stack slots -/

/-- The whole stack replaced. -/
def State.setStack (s : State) (slots : Vector Word 16) : State := { s with stack := slots }

/-- Two stacks agree on the held return addresses. -/
def AgreeBelow (sp : Nat) (slots slots' : Vector Word 16) : Prop := ∀ k : Fin 16, k.val < sp → slots[k] = slots'[k]

/-- R152: a push writes slot SP only. -/
theorem State.getElem_pushed_stack (s : State) (a : Word) (k : Fin 16) :
    (s.pushed a).stack[k] = if s.sp.val = k.val then a else s.stack[k] := by
  by_cases hsp : s.sp.val < 16
  · simp only [State.pushed, hsp, dif_pos, Fin.getElem_fin, Vector.getElem_set]
  · have hne : s.sp.val ≠ k.val := by omega
    simp only [State.pushed, hsp, dif_neg, not_false_eq_true, hne, if_false]

/-- R152: a slot held after a push is slot SP, or was held before. -/
theorem State.lt_of_lt_pushed_sp {s : State} {a : Word} {k : Nat} (h : k < (s.pushed a).sp.val) (hne : s.sp.val ≠ k) :
    k < s.sp.val := by
  have hk : k < s.sp.val + 1 := Nat.lt_of_lt_of_le h (Nat.min_le_left _ _)
  omega

/-- R152: stacks that agree below SP agree below the new SP after the same push. -/
theorem agreeBelow_pushed {s : State} {slots : Vector Word 16} (h : AgreeBelow s.sp.val slots s.stack) (a : Word) :
    AgreeBelow (s.pushed a).sp.val ((s.setStack slots).pushed a).stack (s.pushed a).stack := by
  intro k hk
  rw [State.getElem_pushed_stack, State.getElem_pushed_stack]
  change ite (s.sp.val = k.val) _ _ = _
  split
  · rfl
  · next hne => exact h k (State.lt_of_lt_pushed_sp hk hne)

/-- R25: an instruction writes the same with other slots at SP and above, but for slots at the new SP and above. -/
theorem effect_setStack (i : Instr) {s : State} {slots : Vector Word 16} (h : AgreeBelow s.sp.val slots s.stack) :
    ∃ slots', effect i (s.setStack slots) = (effect i s).setStack slots' ∧
      AgreeBelow (effect i s).sp.val slots' (effect i s).stack := by
  cases i with
  | call nnn => exact ⟨_, rfl, agreeBelow_pushed h (s.pc + 2)⟩
  | ret => exact ⟨slots, rfl, fun k hk => h k (Nat.lt_of_lt_of_le hk (Nat.sub_le _ _))⟩
  | ldVxMem x =>
    refine ⟨slots, ?_, h⟩
    simp only [effect]
    rw [State.loadRegs_v_congr (t := s.setStack slots) (s := s) rfl rfl]
    rfl
  | _ => exact ⟨slots, rfl, h⟩

/-- R25, R124: PC after an instruction that does not fault depends on held return addresses only. -/
theorem pcAfter_setStack {i : Instr} {s : State} {slots : Vector Word 16} (h : AgreeBelow s.sp.val slots s.stack)
    (hx : faultOf i s = none) : pcAfter i (s.setStack slots) = pcAfter i s := by
  cases i with
  | ret =>
    have hsp : s.sp.val ≠ 0 := by simpa [faultOf] using hx
    have hlt : s.sp.val - 1 < 16 := by omega
    have hslot : slots[s.sp.val - 1] = s.stack[s.sp.val - 1] := h ⟨_, hlt⟩ (by simp only; omega)
    simp only [pcAfter, State.setStack, Vector.getElem?_eq_getElem hlt, hslot]
  | _ => rfl

/-- R25: the state after an instruction that does not fault depends on stale slots in stale slots only. -/
theorem stateAfter_setStack {i : Instr} {s : State} {slots : Vector Word 16} (h : AgreeBelow s.sp.val slots s.stack)
    (hx : faultOf i s = none) : ∃ slots', stateAfter i (s.setStack slots) = (stateAfter i s).setStack slots' ∧
      AgreeBelow (stateAfter i s).sp.val slots' (stateAfter i s).stack := by
  obtain ⟨slots', heff, hagree⟩ := effect_setStack i h
  refine ⟨slots', ?_, hagree⟩
  rw [stateAfter, heff, pcAfter_setStack h hx]
  rfl

/-- Settles O54: the fetch and the fault do not depend on the stack, and the state after an instruction depends on slots
at SP and above in such slots only. -/
theorem staleSlotsAreNotRead : Obligations.StaleSlotsAreNotRead := by
  intro s slots h
  refine ⟨fun f h => step_eq_fault_congr h rfl rfl rfl rfl rfl, fun t ht => ?_⟩
  obtain ⟨i, hf, hx, rfl⟩ := step_eq_next_iff.1 ht
  obtain ⟨slots', hstate, hagree⟩ := stateAfter_setStack (s := s.setRedraw false) (slots := slots) h hx
  refine ⟨slots', step_eq_next_iff.2 ⟨i, ?fetch, ?fault, hstate.symm⟩, hagree⟩
  case fetch => exact (fetchInstr_congr rfl rfl).trans hf
  case fault => exact (faultOf_congr rfl rfl rfl rfl rfl i).trans hx

end Sys2Proof.Machine
end

section
/-! The invariant of reachable states: memory in its canonical form, PC and the held return addresses in their ranges
(R24, R153). -/

open Sys2Proof.Safety

namespace Sys2Proof.Machine

/-- An instruction that does not fault keeps memory in its canonical form: its stores are inside memory (R62, R72). -/
theorem wf_mem_effect {i : Instr} {s : State} (hwf : Memory.wf s.mem) (hx : faultOf i s = none) :
    Memory.wf (effect i s).mem := by
  cases i with
  | ldB x =>
    have hb : _ ∨ s.indexBase + 3 ≤ 4096 := blockFault_eq_none.1 hx
    exact Memory.wf_writeBytes hwf (hb.resolve_left (by decide))
  | ldMemVx x =>
    have hb : _ ∨ s.indexBase + regCount x ≤ 4096 := blockFault_eq_none.1 hx
    refine Memory.wf_writeBytes hwf ?_
    rw [State.firstRegs_length s (count := regCount x) x.isLt]
    exact hb.resolve_left (Nat.succ_ne_zero _)
  | _ => exact hwf

/-- R124: from a PC that fetches, PC + 2 and PC + 4 do not wrap. -/
theorem toNat_pc_add {pc k : Word} (hpc : pc.toNat ≤ 4094) (hk : k.toNat ≤ 4) : (pc + k).toNat = pc.toNat + k.toNat :=
  BitVec.toNat_add_of_lt (by omega)

/-- R124: from a PC that fetches, the next PC is at most 0x10FE. -/
theorem pcAfter_le {i : Instr} {s : State} (hpc : s.pc.toNat ≤ 4094) (hret : returnsBounded s)
    (hx : faultOf i s = none) : (pcAfter i s).toNat ≤ 0x10FE := by
  have h0 : s.pc.toNat ≤ 0x10FE := by omega
  have hadd (k : Word) (hk : k.toNat ≤ 4) : (s.pc + k).toNat ≤ 0x10FE := by
    rw [toNat_pc_add hpc hk]
    omega
  have h2 := hadd 2 (by decide)
  have h4 := hadd 4 (by decide)
  cases i with
  | ret =>
    have hsp : s.sp.val ≠ 0 := by simpa [faultOf] using hx
    have hlt : s.sp.val - 1 < 16 := by omega
    obtain ⟨-, hslot⟩ := hret ⟨s.sp.val - 1, hlt⟩ (by simp only; omega)
    rw [pcAfter, Vector.getElem?_eq_getElem hlt]
    exact Nat.le_trans hslot (by decide)
  | jp nnn | call nnn =>
    have := nnn.isLt
    rw [pcAfter, BitVec.toNat_ofNat]
    omega
  | jpV0 nnn =>
    have := nnn.isLt
    have := (s.readV 0x0#4).isLt
    rw [pcAfter, BitVec.toNat_ofNat]
    omega
  | seImm | sneImm | seReg | sneReg | skp | sknp | ldVxK =>
    rw [pcAfter]
    split <;> assumption
  | _ => exact h2

/-- R153: an instruction executed at a PC that fetches keeps the held return addresses in 2 to 4096. -/
theorem returnsBounded_effect {s : State} (hpc : s.pc.toNat ≤ 4094) (hret : returnsBounded s) (i : Instr) :
    returnsBounded (effect i s) := by
  cases i with
  | call nnn =>
    intro k hk
    have hnew : (s.pc + 2).toNat = s.pc.toNat + 2 := toNat_pc_add hpc (by decide)
    simp only [effect, State.getElem_pushed_stack]
    split
    · omega
    · next hne => exact hret k (State.lt_of_lt_pushed_sp hk hne)
  | ret => exact fun k hk => hret k (Nat.lt_of_lt_of_le hk (Nat.sub_le _ _))
  | _ => exact hret

/-- Settles O50: a step that answers a next state fetched at a PC of at most 4094. -/
theorem stepKeepsInvariant : Obligations.StepKeepsInvariant := by
  rintro s t ⟨hwf, -, hret⟩ h
  obtain ⟨i, hf, hx, rfl⟩ := step_eq_next_iff.1 h
  obtain ⟨hpc, -⟩ := fetchInstr_eq_ok.1 hf
  exact ⟨wf_mem_effect (s := s.setRedraw false) hwf hx, pcAfter_le (s := s.setRedraw false) hpc hret hx,
    returnsBounded_effect (s := s.setRedraw false) hpc hret i⟩

/-- Settles O51: memory lists no cell, PC is 0x200, and no return address is held. -/
theorem resetHasInvariant : Obligations.ResetHasInvariant :=
  ⟨Memory.wf_nil, by decide, fun k hk => absurd hk (Nat.not_lt_zero k.val)⟩

/-- R282: a loaded image keeps the invariant. -/
theorem inv_load {s t : State} {bytes : List Byte} (hs : Inv s) (h : load bytes s = .next t) : Inv t := by
  obtain ⟨hwf, hpc, hret⟩ := hs
  unfold load at h
  split at h
  next hfits =>
    cases h
    have hlen : bytes.length ≤ 3584 := of_decide_eq_true hfits
    exact ⟨Memory.wf_writeBytes hwf (by simp only [Config.entry, Config.memSize]; omega), hpc, hret⟩
  next => cases h

/-- R125, R126: a step transaction keeps the invariant, whether the step faults or not. -/
theorem inv_hostStep {s : State} (hs : Inv s) : Inv (hostStep s).1 := by
  rcases step_cases s with ⟨f, h⟩ | ⟨t, h⟩
  · rw [hostStep_of_fault h]
    exact hs
  · rw [hostStep_of_next h]
    exact stepKeepsInvariant s t hs h

/-- R263: every transaction keeps the invariant. -/
theorem inv_transact (t : Transaction) {s : State} (hs : Inv s) : Inv (transact t s).1 := by
  cases t with
  | construct => exact resetHasInvariant
  | load bytes =>
    cases hl : load bytes s with
    | next u =>
      simp only [transact, hl]
      exact inv_load hs hl
    | fault | refused =>
      simp only [transact, hl]
      exact hs
  | step => exact inv_hostStep hs
  | _ => exact hs

/-- Settles O52, by induction on the schedule. -/
theorem schedulesKeepInvariant : Obligations.SchedulesKeepInvariant := by
  intro ts
  induction ts with
  | nil => exact fun _ hs => hs
  | cons t rest ih => exact fun s hs => ih _ (inv_transact t hs)

end Sys2Proof.Machine
end

section
/-! Memory and reset: the canonical form is unique (log 22), a stored word is fetched (R63), and Table RST (R33). -/

namespace Sys2Proof.Machine

/-- An address that no cell lists reads as its reset contents. -/
theorem Memory.read_of_forall_ne {m : List Host.Cell} {a : Nat} (h : ∀ c ∈ m, c.1 ≠ a) :
    Memory.read m a = resetByte a := by
  induction m with
  | nil => rfl
  | cons c rest ih =>
    rw [List.forall_mem_cons] at h
    rw [Memory.read, if_neg h.1, ih h.2]

/-- The tail of a canonical memory lists no address of its head. -/
theorem Memory.wf_cons {c : Host.Cell} {m : List Host.Cell} (h : Memory.wf (c :: m)) :
    Memory.wf m ∧ (∀ d ∈ m, c.1 < d.1) ∧ c.2 ≠ resetByte c.1 := by
  obtain ⟨hp, hm⟩ := h
  obtain ⟨hlt, hp⟩ := List.pairwise_cons.1 hp
  obtain ⟨⟨-, hc⟩, hm⟩ := List.forall_mem_cons.1 hm
  exact ⟨⟨hp, hm⟩, hlt, hc⟩

/-- The first cell of a canonical memory is listed by every memory that reads alike. -/
theorem Memory.exists_mem_of_read_eq {c : Host.Cell} {m m' : List Host.Cell} (h : Memory.wf (c :: m))
    (hr : ∀ a, Memory.read (c :: m) a = Memory.read m' a) : ∃ d ∈ m', d.1 = c.1 := by
  by_contra hno
  push Not at hno
  obtain ⟨-, -, hc⟩ := Memory.wf_cons h
  have hread := hr c.1
  rw [Memory.read_of_forall_ne hno, Memory.read, if_pos rfl] at hread
  exact hc hread

/-- The first address of a canonical memory is at most that of any address it lists. -/
theorem Memory.head_le {d e : Host.Cell} {m : List Host.Cell} (h : Memory.wf (d :: m)) (he : e ∈ d :: m) :
    d.1 ≤ e.1 := by
  obtain ⟨-, hlt, -⟩ := Memory.wf_cons h
  rcases List.mem_cons.1 he with rfl | he
  · exact Nat.le_refl _
  · exact (hlt e he).le

/-- Two canonical memories that read alike begin with the same cell, and their tails read alike. -/
theorem Memory.read_cons_inj {c d : Host.Cell} {m m' : List Host.Cell} (h : Memory.wf (c :: m))
    (h' : Memory.wf (d :: m')) (hr : ∀ a, Memory.read (c :: m) a = Memory.read (d :: m') a) :
    c = d ∧ ∀ a, Memory.read m a = Memory.read m' a := by
  obtain ⟨e, he, hec⟩ := Memory.exists_mem_of_read_eq h hr
  obtain ⟨g, hg, hgd⟩ := Memory.exists_mem_of_read_eq h' fun a => (hr a).symm
  have haddr : c.1 = d.1 := Nat.le_antisymm (hgd ▸ Memory.head_le h hg) (hec ▸ Memory.head_le h' he)
  have hbyte : c.2 = d.2 := by simpa [Memory.read, haddr] using hr d.1
  refine ⟨Prod.ext haddr hbyte, fun a => ?_⟩
  obtain ⟨-, hlt, -⟩ := Memory.wf_cons h
  obtain ⟨-, hlt', -⟩ := Memory.wf_cons h'
  by_cases ha : a = c.1
  · rw [Memory.read_of_forall_ne fun x hx => ha ▸ (hlt x hx).ne', Memory.read_of_forall_ne fun x hx => ?_]
    exact ha ▸ haddr ▸ (hlt' x hx).ne'
  · have hread := hr a
    rwa [Memory.read, Memory.read, if_neg (Ne.symm ha), if_neg (haddr ▸ Ne.symm ha)] at hread

/-- Settles O56, by induction on the cells of one of the two. -/
theorem canonicalMemoryIsUnique : Obligations.CanonicalMemoryIsUnique := by
  intro m
  induction m with
  | nil =>
    intro m' _ h' hr
    cases m' with
    | nil => rfl
    | cons d m' =>
      obtain ⟨c, hc, -⟩ := Memory.exists_mem_of_read_eq h' fun a => (hr a).symm
      exact absurd hc List.not_mem_nil
  | cons c m ih =>
    intro m' h h' hr
    cases m' with
    | nil =>
      obtain ⟨d, hd, -⟩ := Memory.exists_mem_of_read_eq h hr
      exact absurd hd List.not_mem_nil
    | cons d m' =>
      obtain ⟨rfl, htail⟩ := Memory.read_cons_inj h h' hr
      rw [ih m' (Memory.wf_cons h).1 (Memory.wf_cons h').1 htail]

/-- Settles O55: the two bytes read at PC are those stored there. -/
theorem storedWordIsFetched : Obligations.StoredWordIsFetched := by
  intro s w hpc
  have h0 := Memory.read_writeBytes_inside s.mem s.pc.toNat [highByte w, lowByte w] (k := 0) (by simp)
  have h1 := Memory.read_writeBytes_inside s.mem s.pc.toNat [highByte w, lowByte w] (k := 1) (by simp)
  refine fetchWord_eq_ok.2 ⟨hpc, ?_⟩
  rw [State.readMem_setMem, State.readMem_setMem, State.setMem_pc]
  exact ((congrArg₂ wordOfBytes h0 h1).trans (wordOfBytes_bytes w)).symm

/-! ## Reset -/

/-- R33: at reset an address reads as its reset contents. -/
theorem readMem_reset (a : Nat) : State.reset.readMem a = resetByte a := rfl

/-- R281: the first word after reset is 0x0000, which is no instruction. -/
theorem step_reset : step State.reset = .fault (.invalidInstruction 0x0000 0x0200) := rfl

/-- Settles O18: each item of the table is a reset value; addresses past the font are past the end of its list. -/
theorem resetHoldsTableRst : Obligations.ResetHoldsTableRst := by
  refine ⟨?registers, rfl, rfl, ?slots, rfl, rfl, rfl, fun c _ => fbCell_fbClear c, ?keys, rfl, ?font, rfl, ?zeros,
    step_reset⟩
  case registers => decide
  case slots => decide
  case keys => decide
  case font =>
    intro a h
    rw [readMem_reset, resetByte, List.getD_eq_getElem font _ h]
  case zeros =>
    intro a h
    have hlen : font.length = 80 := rfl
    rw [readMem_reset, resetByte, List.getD_eq_default font _ (by omega)]
    rfl

end Sys2Proof.Machine
end

section
/-! The host's transactions (R254 to R263, R282). -/

open Sys2Proof.Safety

namespace Sys2Proof.Machine

/-! ## load -/

/-- R282: an image that fits is copied to 0x200 upward. -/
theorem load_of_le {bytes : List Byte} (h : bytes.length ≤ 3584) (s : State) :
    load bytes s = .next (s.setMem (Memory.writeBytes s.mem 0x200 bytes)) :=
  if_pos (decide_eq_true h)

/-- R248: a longer one is refused. -/
theorem load_of_gt {bytes : List Byte} (h : 3584 < bytes.length) (s : State) :
    load bytes s = .fault (.loadOverflow bytes.length) :=
  if_neg (ne_true_of_eq_false (decide_eq_false (Nat.not_le.2 h)))

/-- R282: loading writes memory only. -/
theorem sameBut_setMem (s : State) (m : List Host.Cell) : sameBut [.mem] s (s.setMem m) := by
  intro p hp
  cases p with
  | mem => simp at hp
  | v => exact fun _ => rfl
  | _ => rfl

/-- R282: the state after a load transaction. -/
theorem transact_load (bytes : List Byte) (s : State) : (transact (.load bytes) s).1 =
    if bytes.length ≤ 3584 then s.setMem (Memory.writeBytes s.mem 0x200 bytes) else s := by
  by_cases h : bytes.length ≤ 3584
  · simp only [transact, load_of_le h, if_pos h]
  · simp only [transact, load_of_gt (Nat.lt_of_not_le h), if_neg h]

/-- Settles O57: the image is one block written at 0x200, or the load is refused. -/
theorem loadCopiesImage : Obligations.LoadCopiesImage := by
  intro s bytes
  constructor
  · intro h
    exact ⟨_, load_of_le h s, fun k hk => Memory.read_writeBytes_inside s.mem 0x200 bytes hk,
      fun a ha => Memory.read_writeBytes_outside s.mem ha, sameBut_setMem s _⟩
  · intro h
    exact ⟨load_of_gt h s, by rw [transact_load, if_neg (Nat.not_le.2 h)]⟩

/-! ## The tick -/

/-- R254: the tick changes the timers only. -/
theorem sameBut_advanceTimers (s : State) : sameBut [.dt, .st] s (advanceTimers s) := by
  intro p hp
  cases p with
  | dt | st => simp at hp
  | mem | v => exact fun _ => rfl
  | _ => rfl

theorem toNat_advanceTimers_dt (s : State) : (advanceTimers s).dt.toNat = s.dt.toNat - 1 := toNat_countDown s.dt

theorem toNat_advanceTimers_st (s : State) : (advanceTimers s).st.toNat = s.st.toNat - 1 := toNat_countDown s.st

/-- R254: any number of ticks. -/
theorem toNat_iterate_advanceTimers (s : State) (n : Nat) :
    (advanceTimers^[n] s).dt.toNat = s.dt.toNat - n ∧ (advanceTimers^[n] s).st.toNat = s.st.toNat - n := by
  induction n with
  | zero => exact ⟨rfl, rfl⟩
  | succ n ih =>
    obtain ⟨hdt, hst⟩ := ih
    rw [Function.iterate_succ_apply', toNat_advanceTimers_dt, toNat_advanceTimers_st, hdt, hst]
    exact ⟨Nat.sub_sub _ _ _, Nat.sub_sub _ _ _⟩

/-- Settles O58: each tick is one count down of both timers; any number of them is an induction. -/
theorem tickCountsDown : Obligations.TickCountsDown := fun s =>
  ⟨⟨toNat_advanceTimers_dt s, toNat_advanceTimers_st s, sameBut_advanceTimers s⟩, toNat_iterate_advanceTimers s⟩

/-! ## The ports -/

/-- R257: the view of cell `c` of row `r`. -/
theorem getElem?_cells (s : State) (r : Fin 32) (c : Fin 64) :
    s.cells[r.val * 64 + c.val]? = some (s.fb[r].getLsbD c.val) := by
  have hlt : r.val * 64 + c.val < Config.fbCells := by simp only [Config.fbCells]; omega
  have hrow : (r.val * 64 + c.val) / 64 = r.val := by omega
  have hcol : (r.val * 64 + c.val) % 64 = c.val := by omega
  rw [State.cells, List.getElem?_map, List.getElem?_range hlt, Option.map_some, fbCell, hrow, hcol,
    Vector.getElem?_eq_getElem r.isLt]
  rfl

/-- Settles O59: a key port writes one flag, and the view lists the cells row by row. -/
theorem hostPortsReadAndWrite : Obligations.HostPortsReadAndWrite := by
  intro s
  refine ⟨fun k q => State.readKey_setKey s k q true, fun k q => State.readKey_setKey s k q false, ⟨rfl, rfl⟩,
    ⟨?_, getElem?_cells s⟩, rfl⟩
  rw [State.cells, List.length_map, List.length_range, Config.fbCells]

/-! ## The frame of every transaction -/

/-- R256: a key port changes the keys only. -/
theorem sameBut_setKey (s : State) (k : Nibble) (b : Bool) : sameBut [.key] s (s.setKey k b) := by
  intro p hp
  cases p with
  | key => simp at hp
  | mem | v => exact fun _ => rfl
  | _ => rfl

/-- The state itself, under any frame. -/
theorem sameBut_refl (l : List Part) (s : State) : sameBut l s s := by
  intro p _
  cases p with
  | mem | v => exact fun _ => rfl
  | _ => rfl

/-- R280: a newly constructed core keeps the model's count of random bytes. -/
theorem sameBut_construct (s : State) :
    sameBut (hostMayWrite .construct s) s { State.reset with rndCount := s.rndCount } := by
  intro p hp
  cases p with
  | rnd => rfl
  | _ => simp [hostMayWrite] at hp

/-- R263: what each transaction may change. -/
theorem sameBut_transact (t : Transaction) (s : State) : sameBut (hostMayWrite t s) s (transact t s).1 := by
  cases t with
  | construct => exact sameBut_construct s
  | load bytes =>
    rw [transact_load]
    split
    · exact sameBut_setMem s _
    · exact sameBut_refl _ s
  | step => exact sameBut_hostStep s
  | advanceTimers => exact sameBut_advanceTimers s
  | setKeyPressed k => exact sameBut_setKey s k true
  | setKeyReleased k => exact sameBut_setKey s k false
  | consumeRedrawFlag => exact sameBut_setRedraw s false
  | framebuffer | soundTimer => exact sameBut_refl _ s

/-- Settles O60: the frame is that of the transaction, and a loaded block lies at 0x200 and above. -/
theorem transactionsKeepTheirFrame : Obligations.TransactionsKeepTheirFrame := by
  intro t s
  refine ⟨sameBut_transact t s, rfl, fun bytes a ha => ?_⟩
  rw [transact_load]
  split
  · exact Memory.read_writeBytes_outside s.mem (.inl ha)
  · rfl

end Sys2Proof.Machine
end

section
/-! The instructions with register results: constants, bitwise, arithmetic, timers, random (44 to 46, 48). -/

open Sys2Proof.Safety

namespace Sys2Proof.Machine

/-! ## Arithmetic on bytes as the spec writes it -/

theorem add_eq_ofNat (a b : Byte) : a + b = BitVec.ofNat 8 ((a.toNat + b.toNat) % 256) :=
  BitVec.eq_of_toNat_eq (by rw [BitVec.toNat_add, BitVec.toNat_ofNat, Nat.mod_mod])

theorem sub_eq_ofNat (a b : Byte) : a - b = BitVec.ofNat 8 ((a.toNat + 256 - b.toNat) % 256) := by
  refine BitVec.eq_of_toNat_eq ?_
  have := b.isLt
  rw [BitVec.toNat_sub, BitVec.toNat_ofNat, Nat.mod_mod]
  congr 1
  omega

theorem shiftRight_one_eq_ofNat (a : Byte) : a >>> 1 = BitVec.ofNat 8 (a.toNat / 2) := by
  refine BitVec.eq_of_toNat_eq ?_
  have := a.isLt
  rw [BitVec.toNat_ushiftRight, Nat.shiftRight_eq_div_pow, BitVec.toNat_ofNat]
  omega

theorem shiftLeft_one_eq_ofNat (a : Byte) : a <<< 1 = BitVec.ofNat 8 (2 * a.toNat % 256) := by
  refine BitVec.eq_of_toNat_eq ?_
  rw [BitVec.toNat_shiftLeft, Nat.shiftLeft_eq, BitVec.toNat_ofNat]
  omega

/-- R183: the bit shifted out at the bottom, as a number. -/
theorem lowBitFlag_eq_ofNat (a : Byte) : lowBitFlag a = BitVec.ofNat 8 (a.toNat % 2) := by
  rw [lowBitFlag, BitVec.getLsbD, Nat.testBit_zero]
  rcases Nat.mod_two_eq_zero_or_one a.toNat with h | h <;> rw [h] <;> rfl

/-- R184: the bit shifted out at the top, as a number. -/
theorem highBitFlag_eq_ofNat (a : Byte) : highBitFlag a = BitVec.ofNat 8 (a.toNat / 128) := by
  have := a.isLt
  rw [highBitFlag, BitVec.getLsbD, Nat.testBit_eq_decide_div_mod_eq]
  obtain h | h : a.toNat / 128 = 0 ∨ a.toNat / 128 = 1 := by omega
  all_goals
    rw [show 2 ^ 7 = 128 from rfl, h]
    rfl

/-- R190: the carry as the spec writes it. -/
theorem carryFlag_eq (a b : Byte) : carryFlag a b = if 255 < a.toNat + b.toNat then 1 else 0 := by
  simp only [carryFlag, flagByte_eq, decide_eq_true_eq]

/-- R191, R192: not-borrow as the spec writes it. -/
theorem notBorrowFlag_eq (a b : Byte) : notBorrowFlag a b = if a.toNat < b.toNat then 0 else 1 := by
  simp only [notBorrowFlag, flagByte_eq, decide_eq_true_eq, ite_not]

/-- R201: the range flag as the spec writes it. -/
theorem rangeFlag_eq (n : Nat) : rangeFlag n = if 0xFFF < n then 1 else 0 := by
  simp only [rangeFlag, flagByte_eq, decide_eq_true_eq]

/-! ## One register, with or without a flag -/

/-- R130: an instruction whose meaning is `writeFlagThenReg` writes the flag, then the result, and moves PC by 2. -/
theorem writesWithFlag_of_writeFlagThenReg {i : Instr} {x : RegName} {b flag : Byte} {s : State}
    (h : exec i s = writeFlagThenReg x flag b s) : writesWithFlag i s x b flag := by
  refine ⟨((s.setV flagReg flag).setV x b).setPc (s.pc + 2), ?completes, ?registers, rfl, ?frame⟩
  case completes => rw [h, writeFlagThenReg_eq]
  case registers =>
    intro r
    rw [State.setPc_readV, State.readV_setV, State.readV_setV]
    rfl
  case frame =>
    exact sameBut_trans (sameBut_setV_setPc flagReg flag s.pc s) (sameBut_setV_setPc x b _ (s.setV flagReg flag))

/-- Settles O20: the meaning is to write the sum of two bytes to Vx. -/
theorem addImmediateWraps : Obligations.AddImmediateWraps := by
  intro s x kk
  rw [← add_eq_ofNat]
  exact ⟨rfl, writesOnly_of_writeReg rfl⟩

/-- Settles O21: the meaning is to write Vy to Vx. -/
theorem copyRegisterWritesRegister : Obligations.CopyRegisterWritesRegister :=
  fun _ _ _ => ⟨rfl, writesOnly_of_writeReg rfl⟩

/-- Settles O22: the byte is the bit-vector operation on the two registers. -/
theorem orAndXorBitByBit : Obligations.OrAndXorBitByBit := by
  intro s x y
  refine ⟨⟨rfl, s.readV x ||| s.readV y, fun k => ?or, writesOnly_of_writeReg rfl⟩,
    ⟨rfl, s.readV x &&& s.readV y, fun k => ?and, writesOnly_of_writeReg rfl⟩,
    ⟨rfl, s.readV x ^^^ s.readV y, fun k => ?xor, writesOnly_of_writeReg rfl⟩⟩
  case or => exact BitVec.getLsbD_or
  case and => exact BitVec.getLsbD_and
  case xor => exact BitVec.getLsbD_xor

/-- Settles O23: the meanings write the bit shifted out, then the shifted byte. -/
theorem shiftsMoveOneBit : Obligations.ShiftsMoveOneBit := by
  intro s x y
  rw [← shiftRight_one_eq_ofNat, ← shiftLeft_one_eq_ofNat, ← lowBitFlag_eq_ofNat, ← highBitFlag_eq_ofNat]
  exact ⟨writesWithFlag_of_writeFlagThenReg rfl, writesWithFlag_of_writeFlagThenReg rfl⟩

/-- Settles O24: the meaning writes the carry, then the sum. -/
theorem addRegisterCarries : Obligations.AddRegisterCarries := by
  intro s x y
  rw [← add_eq_ofNat, ← carryFlag_eq]
  exact writesWithFlag_of_writeFlagThenReg rfl

/-- Settles O25: the meanings write not-borrow, then the difference. -/
theorem subtractsBorrow : Obligations.SubtractsBorrow := by
  intro s x y
  rw [← sub_eq_ofNat, ← sub_eq_ofNat, ← notBorrowFlag_eq, ← notBorrowFlag_eq]
  exact ⟨writesWithFlag_of_writeFlagThenReg rfl, writesWithFlag_of_writeFlagThenReg rfl⟩

/-! ## Timers and the random byte -/

/-- Settles O41: one is a register write, and the other two write a timer. -/
theorem timerTransfers : Obligations.TimerTransfers := by
  intro s x
  exact ⟨⟨rfl, writesOnly_of_writeReg rfl⟩,
    ⟨rfl, _, exec_of_faultOf_eq_none rfl, rfl, rfl, sameBut_stateAfter (.ldDtVx x) s⟩,
    ⟨rfl, _, exec_of_faultOf_eq_none rfl, rfl, rfl, sameBut_stateAfter (.ldStVx x) s⟩⟩

/-- Settles O42: a bit that is 0 in the mask is 0 in the result. -/
theorem randomByteUnderMask : Obligations.RandomByteUnderMask := by
  intro s x kk
  have hreg (r : RegName) : (stateAfter (.rnd x kk) s).readV r =
      if r = x then Config.rnd s.rndCount &&& kk else s.readV r := State.readV_setV s.countRnd x r _
  refine ⟨stateAfter (.rnd x kk) s, exec_of_faultOf_eq_none rfl, hreg, fun k hk => ?_, rfl, rfl,
    sameBut_mono (sameBut_stateAfter (.rnd x kk) s) (by simp [mayWrite])⟩
  rw [hreg, if_pos rfl, BitVec.getLsbD_and, hk, Bool.and_false]

end Sys2Proof.Machine
end

section
/-! Skips and flow (42, 43): the instructions whose result is PC. -/

open Sys2Proof.Safety

namespace Sys2Proof.Machine

/-- An instruction that may write PC only, and does not fault, moves PC where Table PCU says. -/
theorem jumpsTo_of_pcAfter {i : Instr} {s : State} {target : Word} (hw : mayWrite i = [.pc]) (hx : faultOf i s = none)
    (hpc : pcAfter i s = target) : jumpsTo i s target :=
  ⟨stateAfter i s, exec_of_faultOf_eq_none hx, hpc, hw ▸ sameBut_stateAfter i s⟩

/-- Settles O26: each branch of each skip is a branch of Table PCU. -/
theorem compareSkipsMovePc : Obligations.CompareSkipsMovePc := by
  intro s x y kk
  refine ⟨⟨rfl, fun h => ?_, fun h => ?_⟩, ⟨rfl, fun h => ?_, fun h => ?_⟩, ⟨rfl, fun h => ?_, fun h => ?_⟩,
    rfl, fun h => ?_, fun h => ?_⟩
  all_goals exact jumpsTo_of_pcAfter rfl rfl (by simp only [pcAfter, h, if_true, if_false])

/-- R164, R165: the index in a register that holds the index of a key. -/
theorem setWidth_readV_of_index {s : State} {x : RegName} {k : Nibble} (h : (s.readV x).toNat = k.toNat) :
    (s.readV x).setWidth 4 = k := by
  refine BitVec.eq_of_toNat_eq ?_
  rw [BitVec.toNat_setWidth, h, Nat.mod_eq_of_lt k.isLt]

/-- Settles O27: with an index below 16 no fault is raised, and Table PCU tests that key. -/
theorem keySkipsTestTheLevel : Obligations.KeySkipsTestTheLevel := by
  intro s x k h
  have hk := setWidth_readV_of_index h
  have hlt : ¬ 15 < (s.readV x).toNat := by
    have := k.isLt
    omega
  exact ⟨jumpsTo_of_pcAfter rfl (if_neg hlt) (by rw [pcAfter, hk]),
    jumpsTo_of_pcAfter rfl (if_neg hlt) (by rw [pcAfter, hk])⟩

/-- Settles O28: the fault of the skip is its index check. -/
theorem keyIndexAbove15Faults : Obligations.KeyIndexAbove15Faults :=
  fun _ _ h => ⟨exec_eq_fault.2 (if_pos h), exec_eq_fault.2 (if_pos h)⟩

/-- Settles O29: the largest sum is 0x10FE, which PC holds. -/
theorem jumpsSetPc : Obligations.JumpsSetPc := by
  intro s nnn
  refine ⟨jumpsTo_of_pcAfter rfl rfl rfl, pcAfter (.jpV0 nnn) s, ?_, jumpsTo_of_pcAfter rfl rfl rfl⟩
  have := nnn.isLt
  have := (s.readV 0x0#4).isLt
  rw [pcAfter, BitVec.toNat_ofNat]
  omega

/-- Settles O30: below SP = 16 the push writes slot SP and no other. -/
theorem callPushesOrOverflows : Obligations.CallPushesOrOverflows := by
  intro s nnn
  refine ⟨fun h => ?_, fun h => exec_eq_fault.2 (if_pos h)⟩
  have hslot (k : Fin 16) := s.getElem_pushed_stack (s.pc + 2) k
  refine ⟨stateAfter (.call nnn) s, exec_of_faultOf_eq_none (if_neg h.ne), (hslot ⟨_, h⟩).trans (if_pos rfl),
    fun k hk => (hslot k).trans (if_neg (Ne.symm hk)), Nat.min_eq_left h, rfl, sameBut_stateAfter (.call nnn) s⟩

/-- R153: with a return address held, a return completes. -/
theorem faultOf_ret_eq_none {s : State} (h : 0 < s.sp.val) : faultOf .ret s = none := if_neg h.ne'

/-- R153: the PC after a return is the slot below SP. -/
theorem pcAfter_ret {s : State} {k : Fin 16} (h : s.sp.val = k.val + 1) : pcAfter .ret s = s.stack[k] := by
  rw [pcAfter, h, Nat.add_sub_cancel, Vector.getElem?_eq_getElem k.isLt]
  rfl

/-- Settles O31: above SP = 0 the pop takes the slot below SP. -/
theorem returnPopsOrUnderflows : Obligations.ReturnPopsOrUnderflows := by
  intro s
  refine ⟨fun k h => ?_, fun h => exec_eq_fault.2 (if_pos h)⟩
  exact ⟨stateAfter .ret s, exec_of_faultOf_eq_none (faultOf_ret_eq_none (by omega)), pcAfter_ret h,
    congrArg (· - 1) h, sameBut_stateAfter .ret s⟩

/-- Settles O32: the slot the call wrote is the one the return reads. -/
theorem returnUndoesCall : Obligations.ReturnUndoesCall := by
  intro s t u nnn hcall hstack hsp
  obtain ⟨hx, rfl⟩ := exec_eq_next.1 hcall
  have hne : s.sp.val ≠ 16 := fun h => by simp [faultOf, h] at hx
  have hlt : s.sp.val < 16 := by omega
  have husp : u.sp.val = s.sp.val + 1 := by
    rw [hsp]
    exact Nat.min_eq_left hlt
  refine ⟨stateAfter .ret u, exec_of_faultOf_eq_none (faultOf_ret_eq_none (by omega)), ?pc, ?sp⟩
  case pc =>
    rw [stateAfter_pc, pcAfter_ret (k := ⟨_, hlt⟩) husp, hstack]
    exact (s.getElem_pushed_stack (s.pc + 2) ⟨_, hlt⟩).trans (if_pos rfl)
  case sp => exact Fin.ext (congrArg (· - 1) husp)

end Sys2Proof.Machine
end

section
/-! Memory and the index register (47): LD_I, ADD_I, LD_F, LD_B, LD_MEM_VX, LD_VX_MEM. -/

open Sys2Proof.Safety

namespace Sys2Proof.Machine

/-! ## The index register -/

/-- Settles O33: the address operand is widened with zeros. -/
theorem setIndexWritesI : Obligations.SetIndexWritesI := fun s nnn =>
  ⟨rfl, _, exec_of_faultOf_eq_none rfl, toNat_addrWord nnn, rfl, sameBut_stateAfter (.ldI nnn) s⟩

/-- Settles O34: the sum is taken in 16 bits, and its flag from the unbounded sum. -/
theorem addIndexFlagsRange : Obligations.AddIndexFlagsRange := by
  intro s x
  refine ⟨stateAfter (.addI x) s, exec_of_faultOf_eq_none rfl, ?sum, fun r => ?registers, rfl,
    sameBut_stateAfter (.addI x) s⟩
  case sum =>
    change (s.i + byteWord (s.readV x)).toNat = _
    rw [BitVec.toNat_add, toNat_byteWord]
    rfl
  case registers =>
    rw [← rangeFlag_eq]
    exact State.readV_setV s flagReg r _

/-- Settles O35: the glyph address is computed from the register alone. -/
theorem glyphAddressOfLowNibble : Obligations.GlyphAddressOfLowNibble := fun s x =>
  ⟨rfl, _, exec_of_faultOf_eq_none rfl, toNat_glyphAddress (s.readV x), rfl, sameBut_stateAfter (.ldF x) s⟩

/-! ## Blocks at I -/

/-- R62, R72: a block that ends at or below 4095 raises no fault. -/
theorem blockFault_eq_none_of_le {len : Nat} (w : Word) {s : State} (h : s.indexBase + len ≤ 4096) :
    blockFault len w s = none := blockFault_eq_none.2 (.inr h)

/-- R243: a block that passes 4095 faults with the lowest bad address. -/
theorem blockFault_eq_some {len : Nat} (w : Word) {s : State} (hlen : 0 < len) (h : 4096 < s.indexBase + len) :
    blockFault len w s = some (.memoryFault (max s.indexBase 4096) s.pc (some w)) := by
  rw [blockFault, badAddress_eq_some.2 ⟨⟨hlen, h⟩, rfl⟩, Option.map_some]

/-- Settles O39: the fault is that of the block at I. -/
theorem blockAbove4095Faults : Obligations.BlockAbove4095Faults := by
  intro s x
  refine ⟨fun h => exec_eq_fault.2 (blockFault_eq_some _ (by decide) (by omega)), fun h => ?_⟩
  have hlen : 4096 < s.indexBase + regCount x := by rw [regCount]; omega
  exact ⟨exec_eq_fault.2 (blockFault_eq_some _ (Nat.succ_pos _) hlen),
    exec_eq_fault.2 (blockFault_eq_some _ (Nat.succ_pos _) hlen)⟩

/-- R204, R205: I past a block that lies in memory. -/
theorem toNat_i_add_regCount {s : State} {x : RegName} (h : s.indexBase + x.toNat ≤ 4095) :
    (s.i + BitVec.ofNat 16 (regCount x)).toNat = s.indexBase + x.toNat + 1 := by
  have := x.isLt
  change s.i.toNat + x.toNat ≤ 4095 at h
  rw [BitVec.toNat_add, BitVec.toNat_ofNat, regCount]
  change _ = s.i.toNat + x.toNat + 1
  omega

/-- R203: the three digits stored. -/
theorem readMem_effect_ldB (x : RegName) (s : State) {k : Nat} (hk : k < (bcdDigits (s.readV x)).length) :
    (effect (.ldB x) s).readMem (s.indexBase + k) = (bcdDigits (s.readV x))[k] :=
  Memory.read_writeBytes_inside s.mem s.indexBase (bcdDigits (s.readV x)) hk

/-- Settles O36: the three bytes are the quotients and remainders by 100 and 10. -/
theorem bcdStoresThreeDigits : Obligations.BcdStoresThreeDigits := by
  intro s x h
  have hundreds := readMem_effect_ldB x s (k := 0) (by simp [bcdDigits])
  have tens := readMem_effect_ldB x s (k := 1) (by simp [bcdDigits])
  have ones := readMem_effect_ldB x s (k := 2) (by simp [bcdDigits])
  simp only [bcdDigits, List.getElem_cons_zero, List.getElem_cons_succ, Nat.add_zero] at hundreds tens ones
  have := (s.readV x).isLt
  refine ⟨stateAfter (.ldB x) s, exec_of_faultOf_eq_none (blockFault_eq_none_of_le _ (by omega)), ?number, ?tens,
    ?ones, ?frame, rfl, sameBut_stateAfter (.ldB x) s⟩
  case number =>
    rw [stateAfter_readMem, stateAfter_readMem, stateAfter_readMem, hundreds, tens, ones]
    simp only [BitVec.toNat_ofNat]
    omega
  case tens =>
    rw [stateAfter_readMem, tens, BitVec.toNat_ofNat]
    omega
  case ones =>
    rw [stateAfter_readMem, ones, BitVec.toNat_ofNat]
    omega
  case frame =>
    intro a ha
    exact Memory.read_writeBytes_outside s.mem (by rw [bcdDigits_length]; omega)

/-- R204: the registers stored by a register dump. -/
theorem readMem_effect_ldMemVx {x r : RegName} (s : State) (hr : r.toNat ≤ x.toNat) :
    (effect (.ldMemVx x) s).readMem (s.indexBase + r.toNat) = s.readV r := by
  have hlen : r.toNat < (s.firstRegs (regCount x)).length := by
    rw [State.firstRegs_length s (count := regCount x) x.isLt]
    exact Nat.lt_succ_of_le hr
  refine (Memory.read_writeBytes_inside s.mem s.indexBase (s.firstRegs (regCount x)) hlen).trans ?_
  rw [State.getElem_firstRegs s _ _ hlen r.isLt, BitVec.ofNat_toNat, BitVec.setWidth_eq]

/-- Settles O37: the block written is V0 to Vx. -/
theorem registerDumpStoresBlock : Obligations.RegisterDumpStoresBlock := by
  intro s x h
  refine ⟨stateAfter (.ldMemVx x) s, exec_of_faultOf_eq_none (blockFault_eq_none_of_le _ ?_),
    fun r hr => readMem_effect_ldMemVx s hr, fun a ha => ?_, toNat_i_add_regCount h, rfl,
    sameBut_stateAfter (.ldMemVx x) s⟩
  · rw [regCount]
    omega
  · refine Memory.read_writeBytes_outside s.mem ?_
    rw [State.firstRegs_length s (count := regCount x) x.isLt, regCount]
    omega

/-- Settles O38: the registers after the load are the bytes of the block. -/
theorem registerLoadReadsBlock : Obligations.RegisterLoadReadsBlock := by
  intro s x h
  refine ⟨stateAfter (.ldVxMem x) s, exec_of_faultOf_eq_none (blockFault_eq_none_of_le _ ?_),
    readV_effect_ldVxMem x s, toNat_i_add_regCount h, rfl, sameBut_stateAfter (.ldVxMem x) s⟩
  rw [regCount]
  omega

/-- Settles O40: the byte at I + r is Vr after the dump, and what the load reads for Vr. -/
theorem reloadRestoresDump : Obligations.ReloadRestoresDump := by
  intro s t u x h hmem hi
  obtain ⟨hx, rfl⟩ := exec_eq_next.1 h
  have hbase : u.indexBase = s.indexBase := congrArg BitVec.toNat hi
  have hx' : faultOf (.ldVxMem x) u = none :=
    blockFault_eq_none.2 (hbase ▸ blockFault_eq_none.1 (show blockFault (regCount x) _ s = none from hx))
  refine ⟨stateAfter (.ldVxMem x) u, exec_of_faultOf_eq_none hx', fun r hr => ?_, ?_⟩
  · rw [stateAfter_readV, readV_effect_ldVxMem, if_pos hr, State.readMem, hmem, hbase]
    exact readMem_effect_ldMemVx s hr
  · exact congrArg (· + BitVec.ofNat 16 (regCount x)) hi

end Sys2Proof.Machine
end

section
/-! The key wait (49): FX0A, and what the host's step reports of it (R125, R230, R231). -/

open Sys2Proof.Safety

namespace Sys2Proof.Machine

/-- R230: with no key pressed the instruction answers the state it found. -/
theorem exec_ldVxK_of_none (x : RegName) {s : State} (h : s.firstKey = none) : exec (.ldVxK x) s = .next s := by
  simp only [exec, execLdVxK, h]

/-- R230: with a key pressed it writes the least index. -/
theorem exec_ldVxK_of_some (x : RegName) {s : State} {k : Nat} (h : s.firstKey = some k) :
    exec (.ldVxK x) s = writeReg x (BitVec.ofNat 8 k) s := by
  simp only [exec, execLdVxK, h]

/-- R230: a pressed key with none below it is the key found. -/
theorem State.firstKey_eq_of_least {s : State} {k : Nibble} (hk : s.readKey k = true)
    (hmin : ∀ j : Nibble, j.toNat < k.toNat → s.readKey j = false) : s.firstKey = some k.toNat := by
  refine State.firstKey_eq_some.2 ⟨k.isLt, by rwa [BitVec.ofNat_toNat, BitVec.setWidth_eq], fun j hj => hmin _ ?_⟩
  have := k.isLt
  rw [BitVec.toNat_ofNat]
  omega

/-- Settles O43: the scan finds no key, or the least pressed one. -/
theorem keyWaitStoresLowestKey : Obligations.KeyWaitStoresLowestKey := by
  intro s x
  refine ⟨fun h => exec_ldVxK_of_none x (State.firstKey_eq_none.2 h), fun k hk hmin => ?_⟩
  rw [← BitVec.ofNat_toNat]
  exact writesOnly_of_writeReg (exec_ldVxK_of_some x (State.firstKey_eq_of_least hk hmin))

/-- R231: a step awaits a key exactly when it fetches an FX0A and no key is pressed. -/
theorem State.awaitsKey_iff {s : State} :
    s.awaitsKey = true ↔ (∃ x, fetchInstr s = .ok (.ldVxK x)) ∧ ∀ k, s.readKey k = false := by
  rw [← State.firstKey_eq_none, ← Option.isNone_iff_eq_none, State.awaitsKey, State.beginStep_eq,
    fetchInstr_setRedraw]
  cases fetchInstr s with
  | error f => simp
  | ok i => cases i <;> simp

/-- R230: the outcome of a step that awaits a key. -/
theorem step_of_awaitsKey {s : State} (h : s.awaitsKey = true) : step s = .next (s.setRedraw false) := by
  obtain ⟨⟨x, hf⟩, hkeys⟩ := State.awaitsKey_iff.1 h
  rw [step_of_fetchInstr_eq_ok hf]
  exact exec_ldVxK_of_none x (State.firstKey_eq_none.2 hkeys)

/-- R125: the host's step reports AwaitingKeyInput exactly when it awaits a key. -/
theorem hostStep_eq_awaiting_iff (s : State) : (hostStep s).2 = .awaitingKeyInput ↔ s.awaitsKey = true := by
  constructor
  · intro h
    rcases step_cases s with ⟨f, hs⟩ | ⟨t, hs⟩
    · rw [hostStep_of_fault hs] at h
      cases h
    · by_contra hno
      rw [hostStep_of_next hs, if_neg hno] at h
      cases h
  · intro h
    rw [hostStep_of_next (step_of_awaitsKey h), if_pos h]

/-- R125, R230: the host's step on an FX0A with a key pressed. -/
theorem hostStep_of_firstKey {s : State} {x : RegName} {k : Nat} (hf : fetchInstr s = .ok (.ldVxK x))
    (hk : s.firstKey = some k) :
    hostStep s = (((s.setRedraw false).setV x (BitVec.ofNat 8 k)).setPc (s.pc + 2), .running) := by
  have hno : ¬ s.awaitsKey = true := fun h => by
    rw [State.firstKey_eq_none.2 (State.awaitsKey_iff.1 h).2] at hk
    cases hk
  have hstep : step s = _ := (step_of_fetchInstr_eq_ok hf).trans (exec_ldVxK_of_some x hk)
  rw [hostStep_of_next hstep, if_neg hno]
  rfl

/-- R230: with one key pressed after none, that key is found. -/
theorem firstKey_setKeyPressed {s : State} (h : ∀ k, s.readKey k = false) (k : Nibble) :
    (setKeyPressed k s).firstKey = some k.toNat := by
  refine State.firstKey_eq_of_least ?_ fun j hj => ?_
  · rw [setKeyPressed, State.readKey_setKey, if_pos rfl]
  · rw [setKeyPressed, State.readKey_setKey, if_neg fun e => (e ▸ hj).ne rfl, h]

/-- Settles O44: the fetch and the scan of the keys decide, and neither reads a timer or REDRAW. -/
theorem awaitingKeyInputExactly : Obligations.AwaitingKeyInputExactly := by
  intro s
  refine ⟨(hostStep_eq_awaiting_iff s).trans State.awaitsKey_iff, fun x hf hkeys => ⟨?_, ?_, fun k => ?_⟩⟩
  · rw [hostStep_of_next (step_of_awaitsKey (State.awaitsKey_iff.2 ⟨⟨x, hf⟩, hkeys⟩))]
    rfl
  · have hf' : fetchInstr (advanceTimers s) = .ok (.ldVxK x) := (fetchInstr_congr rfl rfl).trans hf
    exact (hostStep_eq_awaiting_iff _).2 (State.awaitsKey_iff.2 ⟨⟨x, hf'⟩, hkeys⟩)
  · have hf' : fetchInstr (setKeyPressed k s) = .ok (.ldVxK x) := (fetchInstr_congr rfl rfl).trans hf
    rw [hostStep_of_firstKey hf' (firstKey_setKeyPressed hkeys k), BitVec.ofNat_toNat]
    refine ⟨rfl, ?_, rfl⟩
    rw [State.setPc_readV, State.readV_setV, if_pos rfl]

end Sys2Proof.Machine
end

section
/-! Display (41): CLS and DRW. The cells of a sprite rise in row-then-bit order, so they are distinct, and the first one
out of range is the least. -/

open Sys2Proof.Safety

namespace Sys2Proof.Machine

/-- Settles O45: CLS has no fault, and no cell of the cleared framebuffer is set. -/
theorem clearZeroesEveryCell : Obligations.ClearZeroesEveryCell :=
  ⟨rfl, fun s =>
    ⟨_, exec_of_faultOf_eq_none rfl, fun c _ => fbCell_fbClear c, rfl, rfl, sameBut_stateAfter .cls s⟩⟩

/-! ## The cells of a sprite -/

/-- R142: the cells of one row rise. -/
theorem pairwise_lt_rowCells (row : Byte) (cx cy : Nat) : (rowCells row cx cy).Pairwise (· < ·) := by
  refine List.Pairwise.map _ (fun a b hab => ?_) (List.pairwise_lt_range.filter _)
  omega

/-- R142: the cells of a sprite rise in row-then-bit order, since a row is 8 cells wide and rows are 64 apart. -/
theorem pairwise_lt_spriteCells (rows : List Byte) (cx cy : Nat) : (spriteCells rows cx cy).Pairwise (· < ·) := by
  induction rows generalizing cy with
  | nil => exact List.Pairwise.nil
  | cons row rest ih =>
    refine List.pairwise_append.2 ⟨pairwise_lt_rowCells row cx cy, ih (cy + 1), fun c hc d hd => ?_⟩
    obtain ⟨b, hb, -, rfl⟩ := mem_rowCells.1 hc
    obtain ⟨r, -, b', -, -, rfl⟩ := mem_spriteCells.1 hd
    omega

/-- R142: the cells of a sprite are distinct. -/
theorem nodup_spriteCells (rows : List Byte) (cx cy : Nat) : (spriteCells rows cx cy).Nodup :=
  (pairwise_lt_spriteCells rows cx cy).imp Nat.ne_of_lt

/-- R142: the last cell of a sprite whose rows end in a set bit. -/
theorem last_mem_spriteCells {n : Nat} (hn : 1 ≤ n) (cx cy : Nat) :
    (cy + n - 1) * 64 + cx + 7 ∈ spriteCells (List.replicate n 0x01#8) cx cy := by
  refine mem_spriteCells.2 ⟨n - 1, by rw [List.length_replicate]; omega, 7, by decide, ?_, ?_⟩
  · rw [List.getElem_replicate]
    rfl
  · rw [← Nat.add_sub_assoc hn, Nat.add_assoc]

/-- Settles O48: a cell is its row and bit in the formula of R141, and the last bit of the last row is the last cell. -/
theorem spriteCellsGeometry : Obligations.SpriteCellsGeometry := by
  refine ⟨fun rows cx cy => ⟨nodup_spriteCells rows cx cy, fun hlen hx hy c hc => ?bound⟩,
    fun n cx cy hn => ⟨fun h => ?last, fun h rows hlen c hc => ?inRange⟩⟩
  case bound =>
    obtain ⟨r, hr, b, hb, -, rfl⟩ := mem_spriteCells.1 hc
    omega
  case last => exact h _ List.length_replicate _ (last_mem_spriteCells hn cx cy)
  case inRange =>
    obtain ⟨r, hr, b, hb, -, rfl⟩ := mem_spriteCells.1 hc
    omega

/-- R244: among rising cells the first one out of range is the least one out of range. -/
theorem badCell_of_least {cells : List Nat} {c : Nat} (hsort : cells.Pairwise (· < ·)) (hc : c ∈ cells)
    (hbad : 2047 < c) (hleast : ∀ d ∈ cells, d < c → d ≤ 2047) : badCell cells = some c := by
  obtain ⟨before, after, rfl⟩ := List.append_of_mem hc
  obtain ⟨-, -, hlt⟩ := List.pairwise_append.1 hsort
  refine badCell_eq_some.2 ⟨hbad, before, after, rfl, fun d hd => ?_⟩
  exact hleast d (List.mem_append_left _ hd) (hlt d hd c List.mem_cons_self)

/-! ## The outcome of a draw -/

/-- R141: the cells of a draw are the covered ones. -/
theorem mem_drawList_iff_covered {s : State} {x y : RegName} {n : Nibble} {c : Nat} :
    c ∈ s.drawList x y n ↔ covered s x y n c := State.mem_drawList

/-- R141, R249: a draw completes exactly when its rows are in memory and its cells in the framebuffer. -/
theorem faultOf_drw_eq_none {s : State} {x y : RegName} {n : Nibble} : faultOf (.drw x y n) s = none ↔
    (n.toNat = 0 ∨ s.indexBase + n.toNat ≤ 4096) ∧ ∀ c ∈ s.drawList x y n, c ≤ 2047 := by
  rw [faultOf, Option.or_eq_none_iff, blockFault_eq_none, cellFault, Option.map_eq_none_iff, badCell_eq_none]

/-- R243, R249: with a row past 4095 the draw faults on its rows. -/
theorem faultOf_drw_of_rows {s : State} (x y : RegName) {n : Nibble} (hn : 0 < n.toNat)
    (h : 4096 < s.indexBase + n.toNat) : faultOf (.drw x y n) s =
      some (.memoryFault (max s.indexBase 4096) s.pc (some (encode (.drw x y n)))) := by
  rw [faultOf, blockFault_eq_some _ hn h, Option.some_or]

/-- R244, R249: with its rows in memory the draw faults on its first cell out of range. -/
theorem faultOf_drw_of_cell {s : State} {x y : RegName} {n : Nibble} {c : Nat} (h : s.indexBase + n.toNat ≤ 4096)
    (hc : badCell (s.drawList x y n) = some c) :
    faultOf (.drw x y n) s = some (.framebufferFault c s.pc (encode (.drw x y n))) := by
  rw [faultOf, blockFault_eq_none_of_le _ h, Option.none_or, cellFault, hc, Option.map_some]

/-- Settles O47: a covered cell below the first bad one comes from an earlier row, or an earlier bit of its row. -/
theorem drawFaultsInOrder : Obligations.DrawFaultsInOrder := by
  intro s x y n
  refine ⟨fun hn h => exec_eq_fault.2 (faultOf_drw_of_rows x y hn h), fun h r b hr hb hset hbad hfirst => ?_⟩
  refine exec_eq_fault.2 (faultOf_drw_of_cell h (badCell_of_least (pairwise_lt_spriteCells _ _ _) ?_ hbad ?_))
  · exact mem_drawList_iff_covered.2 ⟨r, hr, b, hb, hset, rfl⟩
  · intro d hd hlt
    obtain ⟨r', -, b', hb', hset', rfl⟩ := mem_drawList_iff_covered.1 hd
    exact hfirst r' b' hb' (by omega) hset'

/-! ## What a draw does to the framebuffer -/

/-- Two framebuffers with the same 2048 cells are equal (R27, log 24). -/
theorem fb_ext {fb fb' : Vector (BitVec 64) 32} (h : ∀ c, c < 2048 → fbCell fb c = fbCell fb' c) : fb = fb' := by
  refine Vector.ext fun r hr => BitVec.eq_of_getLsbD_eq fun j hj => ?_
  have hc := h (r * 64 + j) (by omega)
  have hrow : (r * 64 + j) / 64 = r := by omega
  have hcol : (r * 64 + j) % 64 = j := by omega
  rwa [fbCell, fbCell, hrow, hcol, Vector.getElem?_eq_getElem hr, Vector.getElem?_eq_getElem hr] at hc

/-- R143: the same cells drawn twice restore the framebuffer. -/
theorem fbDraw_fbDraw_fst (fb : Vector (BitVec 64) 32) {cells : List Nat} (hn : cells.Nodup)
    (hr : ∀ c ∈ cells, c < 2048) :
    (fbDraw (fbDraw fb false cells).1 false cells).1 = fb := by
  refine fb_ext fun c _ => ?_
  rw [(fbDraw_spec _ false hn hr).1, (fbDraw_spec fb false hn hr).1, Bool.xor_assoc, Bool.xor_self, Bool.xor_false]

/-- R143: the second drawing collides exactly when one of the cells was clear. -/
theorem fbDraw_fbDraw_snd (fb : Vector (BitVec 64) 32) {cells : List Nat} (hn : cells.Nodup)
    (hr : ∀ c ∈ cells, c < 2048) :
    (fbDraw (fbDraw fb false cells).1 false cells).2 = true ↔ ∃ c ∈ cells, fbCell fb c = false := by
  rw [(fbDraw_spec _ false hn hr).2, Bool.false_or, List.any_eq_true]
  refine exists_congr fun c => and_congr_right fun hc => ?_
  rw [(fbDraw_spec fb false hn hr).1, decide_eq_true hc, Bool.xor_true, Bool.not_eq_true']

/-- R141: VF after a draw. -/
theorem readV_flag_stateAfter_drw (x y : RegName) (n : Nibble) (s : State) :
    (stateAfter (.drw x y n) s).readV 0xF#4 = flagByte (fbDraw s.fb false (s.drawList x y n)).2 :=
  (State.readV_setV (s.setFb _) flagReg flagReg _).trans (if_pos rfl)

/-- R22: VF is 1 or 0 by the collision. -/
theorem flagByte_eq_one_iff (b : Bool) : flagByte b = 1 ↔ b = true := by
  cases b <;> decide

/-- The cells of a draw that completes: distinct, and all in the framebuffer. -/
theorem drawList_drawable {s : State} {x y : RegName} {n : Nibble} (h : ∀ c ∈ s.drawList x y n, c ≤ 2047) :
    (s.drawList x y n).Nodup ∧ ∀ c ∈ s.drawList x y n, c < 2048 :=
  ⟨nodup_spriteCells _ _ _, fun c hc => Nat.lt_succ_of_le (h c hc)⟩

/-- Settles O46: the drawing loop runs over the covered cells, which are distinct and in range. -/
theorem drawFlipsCoveredCells : Obligations.DrawFlipsCoveredCells := by
  intro s x y n hrows hcells
  have hrange : ∀ c ∈ s.drawList x y n, c ≤ 2047 := fun c hc => hcells c (mem_drawList_iff_covered.1 hc)
  obtain ⟨hnodup, hlt⟩ := drawList_drawable hrange
  obtain ⟨hflip, hcoll⟩ := fbDraw_spec s.fb false hnodup hlt
  rw [Bool.false_or] at hcoll
  have hvf := readV_flag_stateAfter_drw x y n s
  refine ⟨stateAfter (.drw x y n) s, exec_of_faultOf_eq_none (faultOf_drw_eq_none.2 ⟨hrows, hrange⟩), ?cells, ?set,
    ?clear, ?registers, rfl, rfl, sameBut_stateAfter (.drw x y n) s⟩
  case cells =>
    refine fun c _ => ⟨fun hc => (hflip c).trans ?_, fun hc => (hflip c).trans ?_⟩
    · rw [decide_eq_true (mem_drawList_iff_covered.2 hc), Bool.xor_true]
    · rw [decide_eq_false fun hm => hc (mem_drawList_iff_covered.1 hm), Bool.xor_false]
  case set =>
    rintro ⟨c, hc, hset⟩
    rw [hvf, hcoll, List.any_eq_true.2 ⟨c, mem_drawList_iff_covered.2 hc, hset⟩]
    rfl
  case clear =>
    intro hno
    rw [hvf, hcoll, List.any_eq_false.2 fun c hc hset => hno ⟨c, mem_drawList_iff_covered.1 hc, hset⟩]
    rfl
  case registers =>
    intro r hr
    exact readV_effect_of_mayWriteReg_eq_false (by simpa [mayWriteReg] using hr) s

/-- R143: a draw of the same rows at the same coordinates over the framebuffer a draw left. -/
theorem drw_of_same_cells {s u : State} {x y : RegName} {n : Nibble} (hx : faultOf (.drw x y n) s = none)
    (hfb : u.fb = (stateAfter (.drw x y n) s).fb) (hmem : u.mem = s.mem) (hi : u.i = s.i)
    (hvx : u.readV x = s.readV x) (hvy : u.readV y = s.readV y) :
    ∃ v, exec (.drw x y n) u = .next v ∧ v.fb = s.fb ∧
      (v.readV 0xF#4 = 1 ↔ ∃ c, covered s x y n c ∧ fbCell s.fb c = false) := by
  have hbase : u.indexBase = s.indexBase := congrArg BitVec.toNat hi
  have hcells : u.drawList x y n = s.drawList x y n := by simp only [State.drawList, hmem, hbase, hvx, hvy]
  have hx' : faultOf (.drw x y n) u = none := by rwa [faultOf_drw_eq_none, hbase, hcells, ← faultOf_drw_eq_none]
  obtain ⟨hnodup, hlt⟩ := drawList_drawable (faultOf_drw_eq_none.1 hx).2
  have hfb' : u.fb = (fbDraw s.fb false (s.drawList x y n)).1 := hfb
  refine ⟨stateAfter (.drw x y n) u, exec_of_faultOf_eq_none hx', ?_, ?_⟩
  · change (fbDraw u.fb false (u.drawList x y n)).1 = s.fb
    rw [hcells, hfb', fbDraw_fbDraw_fst s.fb hnodup hlt]
  · rw [readV_flag_stateAfter_drw, hcells, hfb', flagByte_eq_one_iff, fbDraw_fbDraw_snd s.fb hnodup hlt]
    simp only [mem_drawList_iff_covered]

/-- Settles O49: with neither x nor y = F the state the first draw leaves has the coordinates of the state before it. -/
theorem drawTwiceRestores : Obligations.DrawTwiceRestores := by
  intro s t x y n h
  obtain ⟨hx, rfl⟩ := exec_eq_next.1 h
  have hkeep (r : RegName) (hr : r ≠ 0xF#4) : (stateAfter (.drw x y n) s).readV r = s.readV r :=
    readV_effect_of_mayWriteReg_eq_false (by simpa [mayWriteReg] using hr) s
  exact ⟨fun u hfb hmem hi hvx hvy => drw_of_same_cells hx hfb hmem hi hvx hvy,
    fun hxF hyF => drw_of_same_cells hx rfl rfl rfl (hkeep x hxF) (hkeep y hyF)⟩

end Sys2Proof.Machine
end
